-- ==== Sys2Proof/Word.lean ====
section
/-!
DEFINITION. The words of the engine: the width of every quantity the spec names (rules R6, R8, R82) and
the command port as one record of its three ports (rule R50). All quantities are unsigned.
-/
namespace Sys2Proof

/-- One 61-bit half of the block (rules R13, R14). -/
abbrev Half := BitVec 61

/-- The 128-bit index operand or result (rule R12). -/
abbrev Index := BitVec 128

/-- The 128-bit identifier value (rule R15). -/
abbrev Value := BitVec 128

/-- One hexadecimal digit of the identifier (rule R33). -/
abbrev Nibble := BitVec 4

/-- One character of the identifier string (rule R58). -/
abbrev Byte := BitVec 8

/-- The 36 characters of the identifier string, offset 0 the leftmost (rule R16). -/
abbrev Text := Vector Byte 36

/-- The round-constant table: 8 entries of 64 bits (rule R23). -/
abbrev RoundConstants := Vector (BitVec 64) 8

/-- What the host drives on the command port for one command (rule R50): the opcode and both data
ports. A port the command ignores may carry anything. -/
structure PortWord where
  op : BitVec 4
  idxIn : BitVec 128
  txtIn : BitVec 288
deriving DecidableEq, Repr

end Sys2Proof
end

