-- ==== Sys2Proof/Syntax.lean ====
section
/-!
DEFINITION. The commands of the engine: one constructor per row of the opcode table (rule R51), with the data
port the command samples as its operand (rule R50).
-/
namespace Sys2Proof

/-- A decoded command. -/
inductive Instr where
  | nop
  | enc (idxIn : Index)
  | dec (txtIn : Text)
  | clr
  | ldidx (idxIn : Index)
  | ldtxt (txtIn : Text)
  | split
  | round
  | unround
  | pack
  | extract
  | fmt
  | parse
  | join
  | reservedE
  | reservedF
deriving DecidableEq, Repr

end Sys2Proof
end

