-- ==== Sys2Proof/WellFormed.lean ====
section
/-!
DEFINITION. Which commands may be presented. A command on the port is never ill-formed (rules R7, R50, R51); a
command as a host WRITES it, with unbounded numbers and texts (rule R60), can be, and its checks stand here.
-/
namespace Sys2Proof

/-- A command as the assembler's text names it (rule R60), before its operand is known to fit a port. -/
inductive AsmCommand where
  | nop
  | enc (index : Nat)
  | dec (text : List Byte)
  | clr
  | ldidx (index : Nat)
  | ldtxt (text : List Byte)
  | split
  | round
  | unround
  | pack
  | extract
  | fmt
  | parse
  | join
  | dotOp (n : Nat)
deriving DecidableEq, Repr

/-- An index operand fits the 128-bit port: "0 <= index < 2^128" (rule R60, 90 C1). -/
def indexFits (index : Nat) : Bool := decide (index < 2 ^ 128)

/-- A text operand fits the text port: "exactly 36 characters" (rule R60). -/
def textFits (text : List Byte) : Bool := text.length == 36

/-- A bare opcode fits the 4-bit port: "opcode n (0 to 15)" (rule R60). -/
def opcodeFits (n : Nat) : Bool := decide (n < 16)

/-- The checks of rule R60 on a written command. -/
def AsmCommand.wellFormed : AsmCommand → Bool
  | .nop => true
  | .enc index => indexFits index
  | .dec text => textFits text
  | .clr => true
  | .ldidx index => indexFits index
  | .ldtxt text => textFits text
  | .split => true
  | .round => true
  | .unround => true
  | .pack => true
  | .extract => true
  | .fmt => true
  | .parse => true
  | .join => true
  | .dotOp n => opcodeFits n

/-- Every command is well-formed: the operand types are the ports' widths, "no encoding whose behaviour is
unspecified" exists (rule R54), and any operand value may be presented (rules R100, R110). -/
def Instr.wellFormed : Instr → Bool
  | .nop => true
  | .enc _ => true
  | .dec _ => true
  | .clr => true
  | .ldidx _ => true
  | .ldtxt _ => true
  | .split => true
  | .round => true
  | .unround => true
  | .pack => true
  | .extract => true
  | .fmt => true
  | .parse => true
  | .join => true
  | .reservedE => true
  | .reservedF => true

end Sys2Proof
end

