-- ==== Sys2Proof/Decode.lean ====
section
/-!
DEFINITION. From the command port to a command and back (rules R34, R50, R51, R52, R60): the decoder looks at `op`
alone and is total; the encoder drives the ports a command ignores with 0.
-/
namespace Sys2Proof

/-- The character at offset `k` on the text port: "byte `k` ... is `txt_in[287 - 8k : 280 - 8k]`" (rule R34). -/
def portByte (w : BitVec 288) (k : Nat) : Byte := w.extractLsb' (280 - 8 * k) 8

/-- The 36 characters a text port carries (rule R34). -/
def textOfPort (w : BitVec 288) : Text := Vector.ofFn fun k : Fin 36 => portByte w k.val

/-- Bytes read as one number, the first the most significant. -/
def bytesNat (bytes : List Byte) : Nat := bytes.foldl (fun acc b => acc * 256 + b.toNat) 0

/-- The text port that carries 36 given characters: "offset 0 is the most significant byte of the port" (rule R34). -/
def portOfText (t : Text) : BitVec 288 := BitVec.ofNat 288 (bytesNat t.toList)

/-- The command on the port. Every value of `op` decodes to exactly one row of the map, decoding looks at `op`
alone (rule R51), and the operand is the sampled port as it is (rule R52). -/
def decode (w : PortWord) : Instr :=
  match w.op with
  | 0x0#4 => .nop
  | 0x1#4 => .enc w.idxIn
  | 0x2#4 => .dec (textOfPort w.txtIn)
  | 0x3#4 => .clr
  | 0x4#4 => .ldidx w.idxIn
  | 0x5#4 => .ldtxt (textOfPort w.txtIn)
  | 0x6#4 => .split
  | 0x7#4 => .round
  | 0x8#4 => .unround
  | 0x9#4 => .pack
  | 0xA#4 => .extract
  | 0xB#4 => .fmt
  | 0xC#4 => .parse
  | 0xD#4 => .join
  | 0xE#4 => .reservedE
  | _ => .reservedF

/-- The opcode of a command (rule R51). -/
def opcode : Instr → BitVec 4
  | .nop => 0x0#4
  | .enc _ => 0x1#4
  | .dec _ => 0x2#4
  | .clr => 0x3#4
  | .ldidx _ => 0x4#4
  | .ldtxt _ => 0x5#4
  | .split => 0x6#4
  | .round => 0x7#4
  | .unround => 0x8#4
  | .pack => 0x9#4
  | .extract => 0xA#4
  | .fmt => 0xB#4
  | .parse => 0xC#4
  | .join => 0xD#4
  | .reservedE => 0xE#4
  | .reservedF => 0xF#4

/-- What a command drives on `idx_in`; 0 where it ignores the port. -/
def idxOperand : Instr → BitVec 128
  | .enc x => x
  | .ldidx x => x
  | .nop | .dec _ | .clr | .ldtxt _ | .split | .round | .unround | .pack | .extract | .fmt | .parse | .join
  | .reservedE | .reservedF => 0

/-- What a command drives on `txt_in`; 0 where it ignores the port. -/
def txtOperand : Instr → BitVec 288
  | .dec t => portOfText t
  | .ldtxt t => portOfText t
  | .nop | .enc _ | .clr | .ldidx _ | .split | .round | .unround | .pack | .extract | .fmt | .parse | .join
  | .reservedE | .reservedF => 0

/-- The port word of a command (rules R50, R51). -/
def encode (i : Instr) : PortWord := ⟨opcode i, idxOperand i, txtOperand i⟩

/-- `idx_in` is "sampled only by `LDIDX` and `ENC`" (rule R50). -/
def samplesIdx (op : BitVec 4) : Bool := op == 0x4#4 || op == 0x1#4

/-- `txt_in` is "sampled only by `LDTXT` and `DEC`" (rule R50). -/
def samplesTxt (op : BitVec 4) : Bool := op == 0x5#4 || op == 0x2#4

/-- A port word whose ignored ports carry 0: the words the encoder makes. -/
def PortWord.canonical (w : PortWord) : Bool :=
  (samplesIdx w.op || w.idxIn == 0) && (samplesTxt w.op || w.txtIn == 0)

/-- Why a number is no command. -/
inductive WordReject where
  /-- The number has bits above the 4 + 128 + 288 bits of the three ports. -/
  | bitsBeyondPorts
deriving DecidableEq, Repr

/-- The three ports numbered as one word of 420 bits: `op` at bits 3..0 as the opcode table numbers it, `idx_in` at bits
131..4, `txt_in` at bits 419..132. DESIGN CHOICE (safe): the spec numbers no bit above the opcode. Assumption log 5. -/
def wordOfPort (w : PortWord) : Nat := w.op.toNat + 16 * (w.idxIn.toNat + 2 ^ 128 * w.txtIn.toNat)

/-- The ports whose numbering is `w`, its bits above 419 left out. -/
def portOfWord (w : Nat) : PortWord :=
  ⟨BitVec.ofNat 4 w, BitVec.ofNat 128 (w / 16), BitVec.ofNat 288 (w / 16 / 2 ^ 128)⟩

/-- The command a 420-bit word carries; a longer number is rejected by name. -/
def decodeWord (w : Nat) : Except WordReject Instr :=
  if w / 16 / 2 ^ 128 / 2 ^ 144 / 2 ^ 144 = 0 then .ok (decode (portOfWord w)) else .error .bitsBeyondPorts

/-- The command read from a word whose bits above `nbits` are 0 (`w` holds them so). -/
def decodeTableWord (_nbits w : Nat) : Option Instr := (decodeWord w).toOption

/-- The port word of a written command, its ignored ports 0 (rule R60); nothing where its operand does not fit. -/
def AsmCommand.assemble (c : AsmCommand) : Option PortWord :=
  if c.wellFormed then
    some (match c with
      | .nop => ⟨0x0#4, 0, 0⟩
      | .enc index => ⟨0x1#4, BitVec.ofNat 128 index, 0⟩
      | .dec text => ⟨0x2#4, 0, BitVec.ofNat 288 (bytesNat text)⟩
      | .clr => ⟨0x3#4, 0, 0⟩
      | .ldidx index => ⟨0x4#4, BitVec.ofNat 128 index, 0⟩
      | .ldtxt text => ⟨0x5#4, 0, BitVec.ofNat 288 (bytesNat text)⟩
      | .split => ⟨0x6#4, 0, 0⟩
      | .round => ⟨0x7#4, 0, 0⟩
      | .unround => ⟨0x8#4, 0, 0⟩
      | .pack => ⟨0x9#4, 0, 0⟩
      | .extract => ⟨0xA#4, 0, 0⟩
      | .fmt => ⟨0xB#4, 0, 0⟩
      | .parse => ⟨0xC#4, 0, 0⟩
      | .join => ⟨0xD#4, 0, 0⟩
      | .dotOp n => ⟨BitVec.ofNat 4 n, 0, 0⟩)
  else none

end Sys2Proof
end

