-- ==== Sys2Proof/Machine/State.lean ====
section
/-!
DEFINITION. The state of the engine as plain data: the seven registers of rule R10, and the two ports a step over
the state has to hold (assumption log 2 and 3), with the reset values of rules R26 and R180.
-/
namespace Sys2Proof.Machine

/-- The four outcomes of a command (rule R53): done, or one of the three conditions of rule R150. Each is a next
state of the engine, never a stop (rule R161). -/
inductive Status where
  | ok
  /-- Raised by SPLIT, and by ENC in its SPLIT, when `IDX >= 2^122` (rule R151). -/
  | outOfRange
  /-- Raised by PARSE and EXTRACT, and by DEC in either (rule R152). -/
  | invalidFormat
  /-- Raised by the reserved opcodes, by ROUND at `RND >= 4` and UNROUND at `RND = 0` or above 4 (rule R153). -/
  | illegalCommand
deriving DecidableEq, Repr

/-- Why the machine stops for good. It has no constructor: "no error halts it, wedges it or requires a reset. There
is no halted, faulted or locked-up state" (rule R161). Nothing raises it. -/
inductive Fault where
deriving DecidableEq, Repr

/-- Why the model gives a command no meaning. -/
inductive Refusal where
  /-- Raised by an arm of `exec` whose command has no meaning yet; no arm does, every command has one. Safe. -/
  | notModelled (mnemonic : String)
deriving DecidableEq, Repr

/-- The registers of the engine (rule R10), its response port, and the commands its host has still to issue. -/
structure State where
  /-- `IDX`, the index operand or result (rule R12). -/
  idx : Index
  /-- `L`, the left half of the block (rule R13). -/
  l : Half
  /-- `R`, the right half of the block (rule R14). -/
  r : Half
  /-- `RND`, how many forward rounds stand applied to `(L, R)` (rule R17). -/
  rnd : BitVec 3
  /-- `VAL`, the identifier value (rule R15). -/
  val : Value
  /-- `TXT`, the identifier string (rule R16). -/
  txt : Text
  /-- `ERR`, the sticky record of the first non-zero status (rule R20). -/
  err : BitVec 2
  /-- `rsp_status` of the command just run (rules R24, R53). The model's own field: DESIGN CHOICE (unsafe), assumption
  log 2. -/
  rsp : BitVec 2
  /-- The port words the host issues next, the first of them first (rules R41, R188). The model's own
  field: DESIGN CHOICE (unsafe), assumption log 3. -/
  program : List PortWord
deriving DecidableEq, Repr

/-- The machine right after reset (rules R26, R180): every register 0, `TXT` 36 bytes `0x00`. The response (log 2)
and the empty list of commands (log 3) are DESIGN CHOICE. -/
def State.reset : State where
  idx := 0
  l := 0
  r := 0
  rnd := 0
  val := 0
  txt := Vector.replicate 36 0
  err := 0
  rsp := 0
  program := []

end Sys2Proof.Machine
end

