-- ==== Sys2Proof/Machine/Flags.lean ====
section
/-!
DEFINITION. Status codes and the one flag of the engine, the sticky `ERR` (rules R20, R53, R155).
-/
namespace Sys2Proof.Machine

/-- The 2-bit code of a status (rule R53). -/
def Status.code : Status → BitVec 2
  | .ok => 0
  | .outOfRange => 1
  | .invalidFormat => 2
  | .illegalCommand => 3

/-- `ERR` after a command that ends with status `st`: "if ERR = 0 and st != 0: ERR <- st" (rule R155). -/
def stickyErr (err : BitVec 2) (st : Status) : BitVec 2 :=
  if err = 0 ∧ st ≠ .ok then st.code else err

end Sys2Proof.Machine
end

