-- ==== Sys2Proof/Machine/Ops.lean ====
section
/-!
DEFINITION. The operations every command is built from: the register writes, completing and raising (rule R154),
running a sequence (rule R122), answering (rules R24, R155), clearing (rules R141, R180) and taking the next command
off the port (rule R41).
-/
namespace Sys2Proof.Machine

/-! ## Register writes -/

/-- `IDX <- x`. -/
def State.withIdx (s : State) (x : Index) : State := { s with idx := x }

/-- `(L, R) <- lr` and `RND <- n` together, as SPLIT, ROUND, UNROUND and EXTRACT write them. -/
def State.withBlock (s : State) (lr : Half × Half) (n : BitVec 3) : State := { s with l := lr.1, r := lr.2, rnd := n }

/-- `VAL <- v`. -/
def State.withVal (s : State) (v : Value) : State := { s with val := v }

/-- `TXT <- t`, all 36 bytes. -/
def State.withTxt (s : State) (t : Text) : State := { s with txt := t }

/-- Every register to its reset value, as CLR writes them (rule R141). -/
def State.cleared (s : State) : State :=
  { s with idx := 0, l := 0, r := 0, rnd := 0, val := 0, txt := Vector.replicate 36 0, err := 0 }

/-- Reset applied between commands (rules R180, R181): the registers at the values of rule R26; the commands the
host has still to issue are not the engine's and stay. DESIGN CHOICE (unsafe), assumption log 2, 3 and 9. -/
def State.applyReset (s : State) : State := { State.reset with program := s.program }

/-! ## Completing, raising, sequencing -/

/-- One micro-command: the state it leaves and its status (rule R7). -/
abbrev Micro := State → State × Status

/-- The micro-command completed. -/
def done (s : State) : State × Status := (s, .ok)

/-- `raise X` (rules R9, R154): no register is written, the status is `X`. -/
def raise (x : Status) (s : State) : State × Status := (s, x)

/-- The micro-commands in order, each from the state the one before it left; the first that raises ends the sequence
with its status, and the writes made so far stay (rule R122). -/
def runSeq : List Micro → Micro
  | [], s => done s
  | m :: ms, s =>
    match (m s).2 with
    | .ok => runSeq ms (m s).1
    | .outOfRange => ((m s).1, .outOfRange)
    | .invalidFormat => ((m s).1, .invalidFormat)
    | .illegalCommand => ((m s).1, .illegalCommand)

/-- The end of a command: the status on the response port, `ERR` by rule R155. -/
def State.complete (s : State) (st : Status) : State := { s with err := stickyErr s.err st, rsp := st.code }

/-- A command always answers a next state: an error is a status, not a stop (rules R154, R161). -/
def respond (p : State × Status) : Host.Outcome State Fault Refusal := .next (p.1.complete p.2)

/-! ## The command port -/

/-- The next command the port accepts and the state with that command taken off the host's list (rule R41); nothing
while the host issues none. -/
def State.takeCommand (s : State) : Option (PortWord × State) :=
  match s.program with
  | [] => none
  | w :: rest => some (w, { s with program := rest })

/-- The host puts a command at the front of what it issues next. -/
def State.issueFirst (s : State) (w : PortWord) : State := { s with program := w :: s.program }

end Sys2Proof.Machine
end

