-- ==== Sys2Proof/Machine/Control.lean ====
section
/-!
DEFINITION. The control commands NOP and CLR (rules R140, R141) and the two reserved opcodes (rule R142).
-/
namespace Sys2Proof.Machine

/-- NOP: the identity on the registers (rule R140). -/
def microNop : Micro := fun s => done s

/-- CLR: every register to its reset value, `ERR` among them (rule R141). -/
def microClr : Micro := fun s => done s.cleared

/-- The reserved opcode `0xE`: raises IllegalCommand (rule R142). -/
def microReservedE : Micro := fun s => raise .illegalCommand s

/-- The reserved opcode `0xF`: raises IllegalCommand (rule R142). -/
def microReservedF : Micro := fun s => raise .illegalCommand s

/-- NOP (rule R140). -/
def execNop (s : State) : Host.Outcome State Fault Refusal := respond (microNop s)

/-- CLR (rule R141). -/
def execClr (s : State) : Host.Outcome State Fault Refusal := respond (microClr s)

/-- Opcode `0xE` (rule R142). -/
def execReservedE (s : State) : Host.Outcome State Fault Refusal := respond (microReservedE s)

/-- Opcode `0xF` (rule R142). -/
def execReservedF (s : State) : Host.Outcome State Fault Refusal := respond (microReservedF s)

end Sys2Proof.Machine
end

