-- ==== Sys2Proof/Config.lean ====
section
/-!
DEFINITION. The configuration the spec leaves open: the contents of the round-constant ROM (rules R6, R11,
R23, 93 U1). The fixed constants of rule R6 stand in Sys2Proof/Machine/Constants.lean.
-/
namespace Sys2Proof

/-- The eight round constants of this engine, `RC[0]` to `RC[7]`. Rule R6 marks them OPEN ("values: none,
see 91_not_in_source.md N1"): the constant has no body, so nothing can be proved of any entry. Every function
that depends on the table takes it as an argument and the meanings pass this one. DESIGN CHOICE (safe), assumption log 1. -/
opaque Config.roundConstants : RoundConstants

end Sys2Proof
end

