-- ==== Sys2Proof/Machine/Constants.lean ====
section
/-!
DEFINITION. The fixed parameters of rule R6, each named once so that an audit can correct it in one place
(rule R6, 93 U2). The spec prints them and calls them unaudited (91 N3):
UNVERIFIED (unsafe), assumption log 8.
-/
namespace Sys2Proof.Machine

/-- `MASK61 = 2^61 - 1` (rule R6). -/
def MASK61 : Nat := 0x1FFFFFFFFFFFFFFF

/-- The multiplier of the round function, a 64-bit odd constant (rule R6). -/
def MULT : Nat := 0x6c8e944d1f5aa3b7

/-- The first rotation amount (rule R6). -/
def ROT_A : Nat := 7

/-- The second rotation amount (rule R6). -/
def ROT_B : Nat := 13

/-- Rounds per invocation (rule R6). -/
def ROUNDS : Nat := 4

/-- The size of the index domain, `2^122` (rule R6, `W_BLOCK`). -/
def DOMAIN : Nat := 0x4000000000000000000000000000000

/-- The version marker, bits `[79:76]` of an identifier value (rule R6). -/
def VERSION : BitVec 4 := 0b0100#4

/-- The variant marker, bits `[63:62]` of an identifier value (rule R6). -/
def VARIANT : BitVec 2 := 0b10#2

/-- The character between the groups of the identifier string, `0x2D` (rule R58). UNVERIFIED (unsafe), assumption log 6. -/
def HYPHEN : Byte := 0x2D#8

end Sys2Proof.Machine
end

