-- ==== Sys2Proof/Machine/Operands.lean ====
section
/-!
DEFINITION. The data formats of rules R55 to R58: the fields of an index, the fields of an identifier value,
the places of the digits in an identifier string, and the character codes.
-/
namespace Sys2Proof.Machine

/-! ## Identifier value (rule R56) -/

/-- `[127:80]`: the top 48 bits of `left`. -/
def valueLeftHigh (v : Value) : BitVec 48 := v.extractLsb 127 80

/-- `[79:76]`: the version marker's place. -/
def valueVersion (v : Value) : BitVec 4 := v.extractLsb 79 76

/-- `[75:64]`: the next 12 bits of `left`. -/
def valueLeftMid (v : Value) : BitVec 12 := v.extractLsb 75 64

/-- `[63:62]`: the variant marker's place. -/
def valueVariant (v : Value) : BitVec 2 := v.extractLsb 63 62

/-- `[61]`: the lowest bit of `left`. -/
def valueLeftLow (v : Value) : BitVec 1 := v.extractLsb 61 61

/-- `[60:0]`: `right`. -/
def valueRight (v : Value) : Half := v.extractLsb 60 0

/-- Digit `j` of a value, `v[127 - 4j : 124 - 4j]`, digit 0 the most significant (rules R33, R57). -/
def digit (v : Value) (j : Nat) : Nibble := v.extractLsb' (124 - 4 * j) 4

/-! ## Identifier string (rule R57) -/

/-- The character offset of digit `j`, as rule R57 tabulates it. -/
def posNat (j : Nat) : Nat :=
  if j ≤ 7 then j
  else if j ≤ 11 then j + 1
  else if j ≤ 15 then j + 2
  else if j ≤ 19 then j + 3
  else j + 4

theorem posNat_lt {j : Nat} (h : j < 32) : posNat j < 36 := by
  unfold posNat; split_ifs <;> omega

/-- `pos(j)` of rule R57: where digit `j` stands in the string. -/
def pos (j : Fin 32) : Fin 36 := ⟨posNat j.val, posNat_lt j.isLt⟩

/-- The offsets of the four hyphens (rule R57, 90 C2). -/
def isHyphenOffset (k : Nat) : Bool := k == 8 || k == 13 || k == 18 || k == 23

/-- The number of the digit at an offset that holds no hyphen: rule R57's table of groups, read the other way. -/
def digitAt (k : Nat) : Nat :=
  if k < 8 then k
  else if k < 13 then k - 1
  else if k < 18 then k - 2
  else if k < 23 then k - 3
  else k - 4

/-! ## Character codes (rule R58) -/

/-- `hexchar(n)`: `0` to `9`, then lowercase `a` to `f`, in ASCII (rule R58). UNVERIFIED (unsafe), assumption log 6. -/
def hexchar (n : Nibble) : Byte :=
  if n.toNat < 10 then BitVec.ofNat 8 (0x30 + n.toNat) else BitVec.ofNat 8 (0x61 + (n.toNat - 10))

/-- `hexval` of rule R84: the digit a character spells; nothing for the other 240 bytes, upper-case letters among them. -/
def hexval (c : Byte) : Option Nibble :=
  if 0x30 ≤ c.toNat ∧ c.toNat ≤ 0x39 then some (BitVec.ofNat 4 (c.toNat - 0x30))
  else if 0x61 ≤ c.toNat ∧ c.toNat ≤ 0x66 then some (BitVec.ofNat 4 (c.toNat - 0x61 + 10))
  else none

end Sys2Proof.Machine
end

