-- ==== Sys2Proof/Machine/Datapath.lean ====
section
/-!
DEFINITION. The datapath functions of rules R70 to R84, in the order of the spec, each kept beside its
formula: exact natural numbers inside, narrowed by the mask the formula writes. What depends on the round
constants takes the table as an argument (93 U1).
-/
namespace Sys2Proof.Machine

/-! ## Mask, rotate, multiply -/

/-- `mask61(v) = v & MASK61` for any natural number (rule R70). -/
def mask61 (v : Nat) : Half := BitVec.ofNat 61 (v &&& MASK61)

/-- `((x << n) | (x >> (61 - n))) & MASK61`: the rotation WITHIN 61 bits (rule R71, 90 C8, 93 U6). UNVERIFIED
(unsafe), assumption log 8. -/
def rotl61 (x : Half) (n : Nat) : Half := mask61 ((x.toNat <<< n) ||| (x.toNat >>> (61 - n)))

/-- `(x * MULT) & MASK61` on the exact product (rule R72). -/
def mulmask (x : Half) : Half := mask61 (x.toNat * MULT)

/-! ## The round function, a round and its inverse -/

/-- `MemRead(ROM, i, 8)`: entry `i` of the constant table (rules R9, R31). -/
def romRead (rc : RoundConstants) (i : BitVec 3) : BitVec 64 := rc[i.toNat]

/-- `F(block, r)`, with the masks where rule R73 writes them. -/
def F (rc : RoundConstants) (block : Half) (r : BitVec 3) : Half :=
  let r1 := block ^^^ mask61 (romRead rc r).toNat
  let r2 := mask61 (rotl61 r1 ROT_A).toNat
  let r3 := mulmask r2
  let r4 := mask61 (rotl61 r3 ROT_B).toNat
  r4

/-- `round(l, r_half, r)` of rule R74 on the pair of halves. -/
def feistelRound (rc : RoundConstants) (r : BitVec 3) (lr : Half × Half) : Half × Half :=
  (lr.2, lr.1 ^^^ mask61 (F rc lr.2 r).toNat)

/-- `unround(l, r_half, r)` of rule R75: `F` is recomputed on the current left half, never inverted. -/
def feistelUnround (rc : RoundConstants) (r : BitVec 3) (lr : Half × Half) : Half × Half :=
  (lr.2 ^^^ mask61 (F rc lr.1 r).toNat, lr.1)

/-- `permute` of rule R76: rounds 0, 1, 2, 3 in that order. -/
def permute (rc : RoundConstants) (lr : Half × Half) : Half × Half :=
  feistelRound rc 3 (feistelRound rc 2 (feistelRound rc 1 (feistelRound rc 0 lr)))

/-- `unpermute` of rule R76: inverse rounds 3, 2, 1, 0 in that order. -/
def unpermute (rc : RoundConstants) (lr : Half × Half) : Half × Half :=
  feistelUnround rc 0 (feistelUnround rc 1 (feistelUnround rc 2 (feistelUnround rc 3 lr)))

/-! ## Split and join -/

/-- An index is legal: `index < 2^122` on all 128 bits (rules R55, R101). -/
def inDomain (x : Index) : Bool := decide (x.toNat < DOMAIN)

/-- `split(index)`: `index >> 61` and `index & (2^61 - 1)` (rule R77). -/
def splitIndex (x : Index) : Half × Half := (BitVec.ofNat 61 (x.toNat >>> 61), mask61 x.toNat)

/-- `join(left, right) = (left << 61) | right` (rule R78). -/
def joinHalves (lr : Half × Half) : Index := BitVec.ofNat 128 ((lr.1.toNat <<< 61) ||| lr.2.toNat)

/-! ## Pack and extract -/

/-- `pack(left, right)`: the six fields of rule R79 at the bit positions of rule R56. -/
def packHalves (lr : Half × Half) : Value :=
  let left : Value := lr.1.setWidth 128
  let right : Value := lr.2.setWidth 128
  ((left >>> 13) <<< 80)
    ||| ((VERSION.setWidth 128) <<< 76)
    ||| (((left >>> 1) &&& 0xFFF#128) <<< 64)
    ||| ((VARIANT.setWidth 128) <<< 62)
    ||| ((left &&& 1#128) <<< 61)
    ||| right

/-- `markers_ok(v)` (rule R80). -/
def markersOk (v : Value) : Bool := valueVersion v == VERSION && valueVariant v == VARIANT

/-- `extract(v)` (rule R81): the fields of `pack` read back, the markers ignored. -/
def extractHalves (v : Value) : Half × Half :=
  ((((valueLeftHigh v).setWidth 61) <<< 13) ||| (((valueLeftMid v).setWidth 61) <<< 1) ||| ((valueLeftLow v).setWidth 61),
    valueRight v)

/-! ## Format and parse -/

/-- The character of `fmt(v)` at offset `k` (rules R57, R83). -/
def fmtChar (v : Value) (k : Nat) : Byte :=
  if isHyphenOffset k then HYPHEN else hexchar (digit v (digitAt k))

/-- `fmt(v)` (rule R83): 32 lowercase digits, leading zeros printed, and four hyphens; the markers are not looked at. -/
def fmtValue (v : Value) : Text := Vector.ofFn fun k : Fin 36 => fmtChar v k.val

/-- The byte at offset `k` is one `parse` accepts there: a hyphen or a lowercase hexadecimal digit (rule R84). -/
def charOk (t : Text) (k : Fin 36) : Bool :=
  if isHyphenOffset k.val then t[k] == HYPHEN else (hexval t[k]).isSome

/-- The string is well-formed hex-with-hyphens (rule R84, 92 D9). -/
def textOk (t : Text) : Bool := (List.finRange 36).all (charOk t)

/-- The digits `f 0`, ..., `f (n - 1)` as one number, `f 0` the most significant. -/
def digitsNat (f : Nat → Nat) : Nat → Nat
  | 0 => 0
  | n + 1 => digitsNat f n * 16 + f n

/-- The digit the string spells at `pos(j)`; 0 where there is none. -/
def textDigit (t : Text) (j : Nat) : Nat :=
  if h : j < 32 then ((hexval t[pos ⟨j, h⟩]).getD 0).toNat else 0

/-- `parse(t)` (rule R84): the value the 32 digits spell, or nothing for `invalid`. -/
def parseText (t : Text) : Option Value :=
  if textOk t then some (BitVec.ofNat 128 (digitsNat (textDigit t) 32)) else none

end Sys2Proof.Machine
end

