-- ==== Sys2Proof/Machine/Forward.lean ====
section
/-!
DEFINITION. The forward micro-commands (rules R100 to R104): LDIDX, SPLIT, ROUND, PACK, FMT. A `micro` definition is
the stage as rule R122 runs it inside a macro-command; an `exec` definition is the command.
-/
namespace Sys2Proof.Machine

/-- LDIDX: `IDX <- idx_in`, unchecked (rule R100). -/
def microLdidx (idxIn : Index) : Micro := fun s => done (s.withIdx idxIn)

/-- SPLIT: raises OutOfRange when `IDX >= 2^122`, else `(L, R) <- split(IDX)` and `RND <- 0` (rule R101). -/
def microSplit : Micro := fun s =>
  if inDomain s.idx then done (s.withBlock (splitIndex s.idx) 0) else raise .outOfRange s

/-- ROUND: raises IllegalCommand when `RND >= 4`, else one forward round with `RC[RND]`, `RND <- RND + 1` (rule R102). -/
def microRound (rc : RoundConstants) : Micro := fun s =>
  if ROUNDS ≤ s.rnd.toNat then raise .illegalCommand s
  else done (s.withBlock (feistelRound rc s.rnd (s.l, s.r)) (s.rnd + 1))

/-- PACK: `VAL <- pack(L, R)`, whatever `RND` is (rule R103). -/
def microPack : Micro := fun s => done (s.withVal (packHalves (s.l, s.r)))

/-- FMT: `TXT <- fmt(VAL)` (rule R104). -/
def microFmt : Micro := fun s => done (s.withTxt (fmtValue s.val))

/-- LDIDX (rule R100). -/
def execLdidx (idxIn : Index) (s : State) : Host.Outcome State Fault Refusal := respond (microLdidx idxIn s)

/-- SPLIT (rule R101). -/
def execSplit (s : State) : Host.Outcome State Fault Refusal := respond (microSplit s)

/-- ROUND (rule R102). -/
def execRound (s : State) : Host.Outcome State Fault Refusal := respond (microRound Config.roundConstants s)

/-- PACK (rule R103). -/
def execPack (s : State) : Host.Outcome State Fault Refusal := respond (microPack s)

/-- FMT (rule R104). -/
def execFmt (s : State) : Host.Outcome State Fault Refusal := respond (microFmt s)

end Sys2Proof.Machine
end

