-- ==== Sys2Proof/Machine/Inverse.lean ====
section
/-!
DEFINITION. The inverse micro-commands (rules R110 to R114): LDTXT, PARSE, EXTRACT, UNROUND, JOIN.
-/
namespace Sys2Proof.Machine

/-- LDTXT: `TXT <- txt_in`, unchecked (rule R110). -/
def microLdtxt (txtIn : Text) : Micro := fun s => done (s.withTxt txtIn)

/-- PARSE: raises InvalidFormat when the text is not well-formed, else `VAL <- parse(TXT)` (rule R111). -/
def microParse : Micro := fun s =>
  match parseText s.txt with
  | none => raise .invalidFormat s
  | some v => done (s.withVal v)

/-- EXTRACT: raises InvalidFormat when the markers are wrong, else `(L, R) <- extract(VAL)` and `RND <- 4` (rule R112). -/
def microExtract : Micro := fun s =>
  if markersOk s.val then done (s.withBlock (extractHalves s.val) 4) else raise .invalidFormat s

/-- UNROUND: raises IllegalCommand when `RND = 0` or `RND > 4`, else one inverse round with `RC[RND - 1]`,
`RND <- RND - 1` (rule R113). -/
def microUnround (rc : RoundConstants) : Micro := fun s =>
  if s.rnd = 0 ∨ ROUNDS < s.rnd.toNat then raise .illegalCommand s
  else done (s.withBlock (feistelUnround rc (s.rnd - 1) (s.l, s.r)) (s.rnd - 1))

/-- JOIN: `IDX <- (L << 61) | R`, whatever `RND` is (rule R114). -/
def microJoin : Micro := fun s => done (s.withIdx (joinHalves (s.l, s.r)))

/-- LDTXT (rule R110). -/
def execLdtxt (txtIn : Text) (s : State) : Host.Outcome State Fault Refusal := respond (microLdtxt txtIn s)

/-- PARSE (rule R111). -/
def execParse (s : State) : Host.Outcome State Fault Refusal := respond (microParse s)

/-- EXTRACT (rule R112). -/
def execExtract (s : State) : Host.Outcome State Fault Refusal := respond (microExtract s)

/-- UNROUND (rule R113). -/
def execUnround (s : State) : Host.Outcome State Fault Refusal := respond (microUnround Config.roundConstants s)

/-- JOIN (rule R114). -/
def execJoin (s : State) : Host.Outcome State Fault Refusal := respond (microJoin s)

end Sys2Proof.Machine
end

