-- ==== Sys2Proof/Machine/Macro.lean ====
section
/-!
DEFINITION. The macro-commands ENC and DEC (rules R120, R121), each the sequence of its micro-commands run by rule R122,
and the closed forms of rules R123 and R124, which do not mention the registers.
-/
namespace Sys2Proof.Machine

/-- The stages of ENC in order (rule R120). -/
def encStages (rc : RoundConstants) (idxIn : Index) : List Micro :=
  [microLdidx idxIn, microSplit, microRound rc, microRound rc, microRound rc, microRound rc, microPack, microFmt]

/-- The stages of DEC in order (rule R121). -/
def decStages (rc : RoundConstants) (txtIn : Text) : List Micro :=
  [microLdtxt txtIn, microParse, microExtract, microUnround rc, microUnround rc, microUnround rc, microUnround rc, microJoin]

/-- ENC, index to identifier, as one sequence (rule R120). -/
def microEnc (rc : RoundConstants) (idxIn : Index) : Micro := runSeq (encStages rc idxIn)

/-- DEC, identifier to index, as one sequence (rule R121). -/
def microDec (rc : RoundConstants) (txtIn : Text) : Micro := runSeq (decStages rc txtIn)

/-- ENC (rule R120). -/
def execEnc (idxIn : Index) (s : State) : Host.Outcome State Fault Refusal :=
  respond (microEnc Config.roundConstants idxIn s)

/-- DEC (rule R121). -/
def execDec (txtIn : Text) (s : State) : Host.Outcome State Fault Refusal :=
  respond (microDec Config.roundConstants txtIn s)

/-- `enc(i)` of rule R123. -/
def encIndex (rc : RoundConstants) (i : Index) : Except Status Text :=
  if inDomain i then .ok (fmtValue (packHalves (permute rc (splitIndex i)))) else .error .outOfRange

/-- `dec(t)` of rule R124. -/
def decText (rc : RoundConstants) (t : Text) : Except Status Index :=
  match parseText t with
  | none => .error .invalidFormat
  | some v => if markersOk v then .ok (joinHalves (unpermute rc (extractHalves v))) else .error .invalidFormat

end Sys2Proof.Machine
end

