-- ==== Sys2Proof/Machine/Dispatch.lean ====
section
/-!
DEFINITION. One arm per command (rule R51): the meaning of each.
-/
namespace Sys2Proof.Machine

def exec (i : Instr) (s : State) : Host.Outcome State Fault Refusal :=
  match i with
  | .nop => Sys2Proof.Machine.execNop s
  | .enc idxIn => Sys2Proof.Machine.execEnc idxIn s
  | .dec txtIn => Sys2Proof.Machine.execDec txtIn s
  | .clr => Sys2Proof.Machine.execClr s
  | .ldidx idxIn => Sys2Proof.Machine.execLdidx idxIn s
  | .ldtxt txtIn => Sys2Proof.Machine.execLdtxt txtIn s
  | .split => Sys2Proof.Machine.execSplit s
  | .round => Sys2Proof.Machine.execRound s
  | .unround => Sys2Proof.Machine.execUnround s
  | .pack => Sys2Proof.Machine.execPack s
  | .extract => Sys2Proof.Machine.execExtract s
  | .fmt => Sys2Proof.Machine.execFmt s
  | .parse => Sys2Proof.Machine.execParse s
  | .join => Sys2Proof.Machine.execJoin s
  | .reservedE => Sys2Proof.Machine.execReservedE s
  | .reservedF => Sys2Proof.Machine.execReservedF s

end Sys2Proof.Machine
end

