-- ==== Sys2Proof/Machine/Step.lean ====
section
/-!
DEFINITION. One step of the machine: the command at the front of the host's list is taken off, decoded and run (rules R38,
R41). With no command on the port nothing happens: DESIGN CHOICE (unsafe), assumption log 4.
-/
namespace Sys2Proof.Machine

/-- One command, one step (rules R7, R38, R41). While the host issues nothing the engine is "idle between commands and
loses nothing while idle" (rule R168): the state is unchanged. -/
def step (s : State) : Host.Outcome State Fault Refusal :=
  match s.takeCommand with
  | none => .next s
  | some (w, s') => exec (decode w) s'

/-- `s` with the command of the word `w` as the next the host issues (assumption log 3 and 5). -/
def State.withFetchWord (s : State) (_nbits w : Nat) : State := s.issueFirst (portOfWord w)

end Sys2Proof.Machine
end

