-- ==== Sys2Proof/Machine/Assembler.lean ====
section
/-!
DEFINITION. The textual form of a command (rule R60): one command a line, `;` starts a comment. A line is a list of
characters; what rule R60 leaves open (white space, quotes and backslashes inside a text) is DESIGN CHOICE
(unsafe), assumption log 7.
-/
namespace Sys2Proof.Machine

/-- Why a line is no command. -/
inductive AsmReject where
  /-- The first word is no mnemonic of rule R60. -/
  | unknownMnemonic
  /-- The operand is missing, is not of the form the mnemonic takes, or is followed by more text. -/
  | badOperand
  /-- The operand does not fit its port: an index of `2^128` or more, a text that is not 36 characters, an opcode
  above 15. -/
  | operandDoesNotFit
deriving DecidableEq, Repr

/-- Blank or tab: what separates words, of which rule R60 says nothing. DESIGN CHOICE (unsafe), assumption log 7. -/
def isBlank (c : Char) : Bool := c == ' ' || c == '\t'

/-- The line without leading blanks. -/
def skipBlanks (line : List Char) : List Char := line.dropWhile isBlank

/-- Nothing is left but blanks and a comment. -/
def atEnd (line : List Char) : Bool :=
  match skipBlanks line with
  | [] => true
  | c :: _ => c == ';'

/-- A character of a mnemonic or a number: anything but a blank, a quote and the start of a comment. So a quoted text may follow its
mnemonic, and a comment may follow a word, with no blank between; rule R60 says nothing of either: DESIGN CHOICE (unsafe),
assumption log 7. -/
def inWord (c : Char) : Bool := !(isBlank c || c == ';' || c == '"')

/-- The value of a digit character below `base`; hexadecimal letters of either case: DESIGN CHOICE (unsafe), assumption
log 7. -/
def digitValue (base : Nat) (c : Char) : Option Nat :=
  let v :=
    if 48 ≤ c.toNat ∧ c.toNat ≤ 57 then c.toNat - 48
    else if 97 ≤ c.toNat ∧ c.toNat ≤ 102 then c.toNat - 97 + 10
    else if 65 ≤ c.toNat ∧ c.toNat ≤ 70 then c.toNat - 65 + 10
    else base
  if v < base then some v else none

/-- The digits read as one number onto `acc`. -/
def numberFrom (base : Nat) : Nat → List Char → Option Nat
  | acc, [] => some acc
  | acc, c :: cs =>
    match digitValue base c with
    | none => none
    | some v => numberFrom base (acc * base + v) cs

/-- `<index>`: "decimal, or 0x-prefixed hexadecimal" (rule R60). The rule says of the `<n>` of `.op` only "0 to 15": that `<n>` may be
written in both forms too is DESIGN CHOICE (unsafe), assumption log 7. -/
def number : List Char → Option Nat
  | [] => none
  | '0' :: 'x' :: d :: ds => numberFrom 16 0 (d :: ds)
  | d :: ds => numberFrom 10 0 (d :: ds)

/-- The characters up to the closing quote and what follows it; `\xHH` is "for a byte that is not printable" (rule R60). That it may
stand for a printable byte too, and that a quote, a backslash and a character outside 32 to 126 are written only so, is
DESIGN CHOICE (unsafe), assumption log 7. -/
def quoted : List Char → Option (List Byte × List Char)
  | [] => none
  | '"' :: rest => some ([], rest)
  | '\\' :: 'x' :: hi :: lo :: rest =>
    match digitValue 16 hi, digitValue 16 lo, quoted rest with
    | some a, some b, some (bytes, after) => some (BitVec.ofNat 8 (a * 16 + b) :: bytes, after)
    | _, _, _ => none
  | '\\' :: _ => none
  | c :: rest =>
    if 32 ≤ c.toNat ∧ c.toNat ≤ 126 then
      match quoted rest with
      | some (bytes, after) => some (BitVec.ofNat 8 c.toNat :: bytes, after)
      | none => none
    else none

/-- A number operand and nothing after it. -/
def numberOperand (make : Nat → AsmCommand) (line : List Char) : Except AsmReject AsmCommand :=
  match number ((skipBlanks line).takeWhile inWord) with
  | some n => if atEnd ((skipBlanks line).dropWhile inWord) then .ok (make n) else .error .badOperand
  | none => .error .badOperand

/-- A quoted text operand and nothing after it. -/
def textOperand (make : List Byte → AsmCommand) (line : List Char) : Except AsmReject AsmCommand :=
  match skipBlanks line with
  | '"' :: rest =>
    match quoted rest with
    | some (bytes, after) => if atEnd after then .ok (make bytes) else .error .badOperand
    | none => .error .badOperand
  | _ => .error .badOperand

/-- The commands without an operand (rule R60). -/
def plainCommand (word : List Char) : Option AsmCommand :=
  if word = "NOP".toList then some .nop
  else if word = "CLR".toList then some .clr
  else if word = "SPLIT".toList then some .split
  else if word = "ROUND".toList then some .round
  else if word = "UNROUND".toList then some .unround
  else if word = "PACK".toList then some .pack
  else if word = "EXTRACT".toList then some .extract
  else if word = "FMT".toList then some .fmt
  else if word = "PARSE".toList then some .parse
  else if word = "JOIN".toList then some .join
  else none

/-- The command a line that is not blank names. -/
def command (line : List Char) : Except AsmReject AsmCommand :=
  let word := line.takeWhile inWord
  let rest := line.dropWhile inWord
  if word = "ENC".toList then numberOperand .enc rest
  else if word = "LDIDX".toList then numberOperand .ldidx rest
  else if word = "DEC".toList then textOperand .dec rest
  else if word = "LDTXT".toList then textOperand .ldtxt rest
  else if word = ".op".toList then numberOperand .dotOp rest
  else
    match plainCommand word with
    | some c => if atEnd rest then .ok c else .error .badOperand
    | none => .error .unknownMnemonic

/-- One line of assembler text (rule R60): its port word, or nothing for a line that holds only a comment. -/
def assembleLine (line : List Char) : Except AsmReject (Option PortWord) :=
  if atEnd line then .ok none
  else
    match command (skipBlanks line) with
    | .error e => .error e
    | .ok c =>
      match c.assemble with
      | some w => .ok (some w)
      | none => .error .operandDoesNotFit

end Sys2Proof.Machine
end

