-- ==== Sys2Proof/Machine/Engine.lean ====
section
/-!
DEFINITION. The step function of rule R7 with the configuration as its argument: `Config -> State -> Command ->
State x Status`. `Machine/Dispatch.lean` runs the same stages with this engine's table; theorems "for every RC" (93 U1) and
runs under the spec's test-only tables are stated with `engine`.
-/
namespace Sys2Proof.Machine

/-- One command under a given table of round constants (rule R7). -/
def engine (rc : RoundConstants) : Instr → Micro
  | .nop => microNop
  | .enc idxIn => microEnc rc idxIn
  | .dec txtIn => microDec rc txtIn
  | .clr => microClr
  | .ldidx idxIn => microLdidx idxIn
  | .ldtxt txtIn => microLdtxt txtIn
  | .split => microSplit
  | .round => microRound rc
  | .unround => microUnround rc
  | .pack => microPack
  | .extract => microExtract
  | .fmt => microFmt
  | .parse => microParse
  | .join => microJoin
  | .reservedE => microReservedE
  | .reservedF => microReservedF

/-- The state after one command under a given table, `ERR` and the response updated (rules R24, R155). -/
def after (rc : RoundConstants) (i : Instr) (s : State) : State := (engine rc i s).1.complete (engine rc i s).2

end Sys2Proof.Machine
end

