-- ==== Sys2Proof/Safety.lean ====
section
/-!
DEFINITION. What claims about runs are stated in: the legal round counts (rule R19), which strings are identifiers
(rule R59), and when a run of commands has gone wrong (rule R188).
-/
namespace Sys2Proof

open Machine

/-- `0 <= RND <= 4` (rule R19). -/
abbrev RndLegal (s : State) : Prop := s.rnd.toNat ≤ 4

/-- `c` is a lowercase hexadecimal digit (rule R58). -/
abbrev IsHexDigit (c : Byte) : Prop := (0x30 ≤ c.toNat ∧ c.toNat ≤ 0x39) ∨ (0x61 ≤ c.toNat ∧ c.toNat ≤ 0x66)

/-- The text is "well-formed hex-with-hyphens" as rule R84 fixes it: `-` at offsets 8, 13, 18, 23 and a lowercase
hexadecimal digit at each of the other 32. -/
abbrev HexWithHyphens (t : Text) : Prop :=
  (t[8] = 0x2D#8 ∧ t[13] = 0x2D#8 ∧ t[18] = 0x2D#8 ∧ t[23] = 0x2D#8) ∧
    ∀ k : Fin 36, k.val ∉ [8, 13, 18, 23] → IsHexDigit t[k]

/-- The strings of rule R59: hex-with-hyphens with `4` at offset 14 and one of `8 9 a b` at offset 19. -/
abbrev IsIdentifier (t : Text) : Prop :=
  HexWithHyphens t ∧ t[14] = 0x34#8 ∧ (t[19] = 0x38#8 ∨ t[19] = 0x39#8 ∨ t[19] = 0x61#8 ∨ t[19] = 0x62#8)

/-- The value of a lowercase hexadecimal digit (rule R84). -/
def hexDigitNat (c : Byte) : Nat := if c.toNat ≤ 0x39 then c.toNat - 0x30 else c.toNat - 0x57

/-- The pair of halves with `n` rounds undone: the block that `n` forward rounds turned into it (rule R187). -/
def originBlock (rc : RoundConstants) : Nat → Half × Half → Half × Half
  | 0, lr => lr
  | n + 1, lr => originBlock rc n (feistelUnround rc (BitVec.ofNat 3 n) lr)

/-- The block the rounds of a state stand applied to (rule R187). -/
def blockOrigin (s : State) : Half × Half := originBlock Config.roundConstants s.rnd.toNat (s.l, s.r)

/-- Commands issued one by one, stopping after the first that answers a non-zero status (rule R122). -/
def issueUntilError : List Instr → State → Host.Outcome State Fault Refusal
  | [], s => .next s
  | i :: is, s =>
    match exec i s with
    | .next t => if t.rsp = 0 then issueUntilError is t else .next t
    | .fault f => .fault f
    | .refused q => .refused q

/-- The statuses the first `k` steps return, in order: a run is "the sequence of states and statuses that the step
function produces" (rule R188). -/
def statuses : Nat → State → List (BitVec 2)
  | 0, _ => []
  | k + 1, s =>
    match step s with
    | .next t => t.rsp :: statuses k t
    | .fault _ => []
    | .refused _ => []

/-- The run of every command the host has still to issue: it "has exactly as many steps as the program has commands"
(rule R188). -/
def runAll (s : State) : Host.Outcome State Fault Refusal := core.run s.program.length s

/-- The run of the commands in `s.program` has gone wrong: "some status was non-zero" (rule R188). -/
abbrev GoneWrong (s : State) : Prop := ∃ st ∈ statuses s.program.length s, st ≠ 0

end Sys2Proof
end

