-- ==== Sys2Proof/Certificates/Slice0/Obligations.lean ====
section
/-!
DEFINITION. The statements for the provers, each from the numbered rules of spec/. Wherever a command's next state is given,
it is given WHOLE as a record update of the state before, so the statement is the command's result, its completion and its
frame in one: what is not named is unchanged, the host's list of commands among it. `rsp := 0` is the status `OK` on the
response port (the model's own field, assumption log 2). Words like `[derived: ...]` are the spec's own marks: a statement that
rests on a rule so marked has basis 'derived'.
-/

open Sys2Proof Sys2Proof.Machine

/-! ## The command port -/

/-- Each of the sixteen opcodes, written out in binary, decodes to the command of its row of the opcode map, with the sampled port as its
operand, whatever the ports carry (rule R51). -/
def Obligations.OpcodeMapSampleWords : Prop :=
  ∀ (x : BitVec 128) (t : BitVec 288),
    decode ⟨0b0000#4, x, t⟩ = .nop ∧ decode ⟨0b0001#4, x, t⟩ = .enc x ∧ decode ⟨0b0010#4, x, t⟩ = .dec (textOfPort t) ∧
      decode ⟨0b0011#4, x, t⟩ = .clr ∧ decode ⟨0b0100#4, x, t⟩ = .ldidx x ∧
      decode ⟨0b0101#4, x, t⟩ = .ldtxt (textOfPort t) ∧ decode ⟨0b0110#4, x, t⟩ = .split ∧
      decode ⟨0b0111#4, x, t⟩ = .round ∧ decode ⟨0b1000#4, x, t⟩ = .unround ∧ decode ⟨0b1001#4, x, t⟩ = .pack ∧
      decode ⟨0b1010#4, x, t⟩ = .extract ∧ decode ⟨0b1011#4, x, t⟩ = .fmt ∧ decode ⟨0b1100#4, x, t⟩ = .parse ∧
      decode ⟨0b1101#4, x, t⟩ = .join ∧ decode ⟨0b1110#4, x, t⟩ = .reservedE ∧ decode ⟨0b1111#4, x, t⟩ = .reservedF

/-- Decoding what the encoder made of a well-formed command gives the command back, on the port and as one 420-bit word.
The numbering of that word above the opcode is the model's choice, assumption log 5. -/
def Obligations.DecodeOfEncodeIsIdentity : Prop :=
  ∀ i : Instr, i.wellFormed = true → decode (encode i) = i ∧ decodeTableWord 420 (wordOfPort (encode i)) = some i

/-- Each port word whose ignored ports carry 0 is the encoder's word of what it decodes to, and the 420-bit numbering loses no
bit of any port word. The numbering above the opcode is the model's choice, assumption log 5. -/
def Obligations.EncodeOfDecodeIsIdentity : Prop :=
  (∀ w : PortWord, w.canonical = true → encode (decode w) = w) ∧ ∀ w : PortWord, portOfWord (wordOfPort w) = w

/-- A port a command ignores may carry any value (rule R50): `idx_in` matters only under the opcodes of LDIDX and ENC, `txt_in`
only under those of LDTXT and DEC, for the command read and so for the state and the status. -/
def Obligations.IgnoredPortsHaveNoEffect : Prop :=
  ∀ (op : BitVec 4) (x x' : BitVec 128) (t t' : BitVec 288) (s : State),
    (op = 0x4#4 ∨ op = 0x1#4 → x = x') → (op = 0x5#4 ∨ op = 0x2#4 → t = t') →
      decode ⟨op, x, t⟩ = decode ⟨op, x', t'⟩ ∧ exec (decode ⟨op, x, t⟩) s = exec (decode ⟨op, x', t'⟩) s

/-- The text port's byte order (rule R34) at the machine: LDTXT of a port word leaves in `TXT[k]` bits `287 - 8k` down to
`280 - 8k` of `txt_in`, and every 36 characters can be presented. -/
def Obligations.TextPortIsMostSignificantFirst : Prop :=
  (∀ (x : BitVec 128) (w : BitVec 288) (s : State), ∃ t, exec (decode ⟨0x5#4, x, w⟩) s = .next t ∧
    ∀ k : Fin 36, (t.txt[k]).toNat = w.toNat / 2 ^ (280 - 8 * k.val) % 256) ∧
  ∀ u : Text, ∃ w : BitVec 288, decode ⟨0x5#4, 0, w⟩ = .ldtxt u

/-- A written command assembles exactly when its operand fits its port: an index below `2^128`, a text of 36 characters, an opcode below
16; and then to a word that decodes to the command written, each of the ten commands without an operand among them (rule R60). -/
def Obligations.AssembledCommandsDecodeToThemselves : Prop :=
  (∀ n : Nat, (AsmCommand.enc n).assemble.isSome = true ↔ n < 2 ^ 128) ∧
  (∀ n : Nat, (AsmCommand.ldidx n).assemble.isSome = true ↔ n < 2 ^ 128) ∧
  (∀ text : List Byte, (AsmCommand.dec text).assemble.isSome = true ↔ text.length = 36) ∧
  (∀ text : List Byte, (AsmCommand.ldtxt text).assemble.isSome = true ↔ text.length = 36) ∧
  (∀ n : Nat, (AsmCommand.dotOp n).assemble.isSome = true ↔ n < 16) ∧
  (∀ n : Nat, n < 2 ^ 128 → ∃ w, (AsmCommand.enc n).assemble = some w ∧ decode w = .enc (BitVec.ofNat 128 n)) ∧
  (∀ n : Nat, n < 2 ^ 128 → ∃ w, (AsmCommand.ldidx n).assemble = some w ∧ decode w = .ldidx (BitVec.ofNat 128 n)) ∧
  (∀ t : Text, ∃ w, (AsmCommand.dec t.toList).assemble = some w ∧ decode w = .dec t) ∧
  (∀ t : Text, ∃ w, (AsmCommand.ldtxt t.toList).assemble = some w ∧ decode w = .ldtxt t) ∧
  (∀ n : Nat, n < 16 → ∃ w, (AsmCommand.dotOp n).assemble = some w ∧ w.op.toNat = n) ∧
  (∃ w, AsmCommand.nop.assemble = some w ∧ decode w = .nop) ∧
  (∃ w, AsmCommand.clr.assemble = some w ∧ decode w = .clr) ∧
  (∃ w, AsmCommand.split.assemble = some w ∧ decode w = .split) ∧
  (∃ w, AsmCommand.round.assemble = some w ∧ decode w = .round) ∧
  (∃ w, AsmCommand.unround.assemble = some w ∧ decode w = .unround) ∧
  (∃ w, AsmCommand.pack.assemble = some w ∧ decode w = .pack) ∧
  (∃ w, AsmCommand.extract.assemble = some w ∧ decode w = .extract) ∧
  (∃ w, AsmCommand.fmt.assemble = some w ∧ decode w = .fmt) ∧
  (∃ w, AsmCommand.parse.assemble = some w ∧ decode w = .parse) ∧
  (∃ w, AsmCommand.join.assemble = some w ∧ decode w = .join)

/-- The mnemonic of each command without an operand, as a line of assembler text, gives the word of that command, and the bare opcode form
gives the reserved opcodes (rule R60). -/
def Obligations.AssemblerLinesNameTheirCommands : Prop :=
  (∃ w, assembleLine "NOP".toList = .ok (some w) ∧ decode w = .nop) ∧
  (∃ w, assembleLine "CLR".toList = .ok (some w) ∧ decode w = .clr) ∧
  (∃ w, assembleLine "SPLIT".toList = .ok (some w) ∧ decode w = .split) ∧
  (∃ w, assembleLine "ROUND".toList = .ok (some w) ∧ decode w = .round) ∧
  (∃ w, assembleLine "UNROUND".toList = .ok (some w) ∧ decode w = .unround) ∧
  (∃ w, assembleLine "PACK".toList = .ok (some w) ∧ decode w = .pack) ∧
  (∃ w, assembleLine "EXTRACT".toList = .ok (some w) ∧ decode w = .extract) ∧
  (∃ w, assembleLine "FMT".toList = .ok (some w) ∧ decode w = .fmt) ∧
  (∃ w, assembleLine "PARSE".toList = .ok (some w) ∧ decode w = .parse) ∧
  (∃ w, assembleLine "JOIN".toList = .ok (some w) ∧ decode w = .join) ∧
  (∃ w, assembleLine ".op 14".toList = .ok (some w) ∧ decode w = .reservedE) ∧
  (∃ w, assembleLine ".op 15".toList = .ok (some w) ∧ decode w = .reservedF)

/-! ## Steps and runs -/

/-- A step takes the command at the front of the host's list off it and is `exec` of the command that word decodes to, in the
state without it (rule R41; the list is the model's field, assumption log 3). -/
def Obligations.StepRunsTheDecodedCommand : Prop :=
  ∀ (s : State) (w : PortWord) (rest : List PortWord), s.program = w :: rest →
    step s = exec (decode w) { s with program := rest }

/-- With no command on the port a step changes nothing. The model's choice, assumption log 4, from rule R168's "The engine is idle
between commands and loses nothing while idle". -/
def Obligations.IdleStepChangesNothing : Prop :=
  ∀ s : State, s.program = [] → step s = .next s

/-- Every state has a next state: "the engine is never stuck and never hangs" (rule R7), no error halts it (rule R161). -/
def Obligations.EveryStepAnswersANextState : Prop :=
  (∀ s : State, ∃ t, step s = .next t) ∧ ∀ (i : Instr) (s : State), ∃ t, exec i s = .next t

/-- The state after commands `c1, ..., cn` is `step(cn, ... step(c1, s))` (rule R41): a run takes them one at a time, in order,
each from the state the one before it left, and leaves the commands after them on the list. -/
def Obligations.RunTakesCommandsInOrder : Prop :=
  ∀ (s : State) (ws rest : List PortWord), s.program = ws ++ rest →
    core.run ws.length s = .next
      { ws.foldl (fun u w => after Config.roundConstants (decode w) u) s with program := rest }

/-- The two parts of a program run one after the other, and a run of all its commands ends with none left (rule R188). -/
def Obligations.RunEndsWithTheProgram : Prop :=
  (∀ (m n : Nat) (s t : State), core.run m s = .next t → core.run (m + n) s = core.run n t) ∧
  ∀ s : State, ∃ t, runAll s = .next t ∧ t.program = [] ∧ (statuses s.program.length s).length = s.program.length

/-- A run that starts with `ERR = 0` has gone wrong (some status non-zero) exactly when `ERR != 0` at its end, provided it holds no
CLR after the first error (rule R188). -/
def Obligations.RunWentWrongIffErrIsSet : Prop :=
  ∀ s t : State, s.err = 0 →
    (∀ (before later : List PortWord) (w : PortWord), s.program = before ++ w :: later → decode w = .clr →
      ¬ GoneWrong { s with program := before }) →
    runAll s = .next t → (GoneWrong s ↔ t.err ≠ 0)

/-- Every command keeps `0 <= RND <= 4`, from every state that has it (rule R19, which the spec marks derived). -/
def Obligations.EveryStepKeepsRoundCountLegal : Prop :=
  ∀ s t : State, RndLegal s → step s = .next t → RndLegal t

/-- The round count is legal at reset: the invariant of EveryStepKeepsRoundCountLegal holds there (rule R19, which the spec marks
derived). -/
def Obligations.ResetRoundCountIsLegal : Prop := RndLegal State.reset

/-- Reset leaves every register at the value of rules R26 and R180: 0, and `TXT` 36 bytes `0x00`. -/
def Obligations.ResetRegisterValues : Prop :=
  State.reset.idx = 0#128 ∧ State.reset.l = 0#61 ∧ State.reset.r = 0#61 ∧ State.reset.rnd = 0#3 ∧ State.reset.val = 0#128 ∧
    (∀ k : Fin 36, State.reset.txt[k] = 0x00#8) ∧ State.reset.err = 0#2

/-- From the reset state EXTRACT and PARSE raise InvalidFormat and UNROUND raises IllegalCommand, writing nothing but `ERR`
(rule R26's notes; rules R111 to R113). -/
def Obligations.CheckingCommandsRaiseFromReset : Prop :=
  exec .extract State.reset = .next { State.reset with err := 2, rsp := 2 } ∧
    exec .parse State.reset = .next { State.reset with err := 2, rsp := 2 } ∧
    exec .unround State.reset = .next { State.reset with err := 3, rsp := 3 }

/-! ## Datapath functions -/

/-- `mask61(v) = v & MASK61 = v mod 2^61` for every natural number (rule R70). -/
def Obligations.MaskIsRemainder : Prop :=
  ∀ v : Nat, (mask61 v).toNat = v % 2 ^ 61 ∧ (mask61 v).toNat = v &&& (2 ^ 61 - 1)

/-- The rotation bit by bit, by its formula, its inverse, and the value that tells it from a 64-bit rotation (rule R71). -/
def Obligations.RotationStaysWithin61Bits : Prop :=
  (∀ (x : Half) (n : Nat), 1 ≤ n → n ≤ 60 →
    (∀ i < 61, (rotl61 x n).getLsbD i = x.getLsbD ((i + 61 - n) % 61)) ∧
    (rotl61 x n).toNat = ((x.toNat <<< n) ||| (x.toNat >>> (61 - n))) &&& (2 ^ 61 - 1) ∧
    rotl61 (rotl61 x n) (61 - n) = x) ∧
  rotl61 0x1000000000000000#61 7 = 0x40#61

/-- The product by MULT may be computed exactly or modulo any `2^k` with `k >= 61`, needs only MULT's low 61 bits, and is a bijection
of 61-bit words (rule R72, part of it marked derived). -/
def Obligations.MulmaskNeedsOnlyLowBits : Prop :=
  (∀ (x : Half) (k : Nat), 61 ≤ k → (mulmask x).toNat = x.toNat * 0x6c8e944d1f5aa3b7 % 2 ^ k % 2 ^ 61) ∧
    (∀ x : Half, (mulmask x).toNat = x.toNat * 0x0C8E944D1F5AA3B7 % 2 ^ 61) ∧ Function.Bijective mulmask

/-- `F` computed in 64-bit words with wrapping shifts and a wrapping product, masked after each step, gives the same 61 bits
(rule R90, which the spec marks derived). -/
def Obligations.RoundFunctionIn64BitWords : Prop :=
  ∀ (rc : RoundConstants) (block : Half) (r : BitVec 3),
    let m : BitVec 64 := 0x1FFFFFFFFFFFFFFF#64
    let r1 : BitVec 64 := block.setWidth 64 ^^^ (rc[r.toNat] &&& m)
    let r2 : BitVec 64 := ((r1 <<< 7) ||| (r1 >>> 54)) &&& m
    let r3 : BitVec 64 := (r2 * 0x6c8e944d1f5aa3b7#64) &&& m
    let r4 : BitVec 64 := ((r3 <<< 13) ||| (r3 >>> 48)) &&& m
    (F rc block r).setWidth 64 = r4

/-- For every table, `F(., r)` is a bijection of 61-bit words, and its only zero is the masked constant itself (rules R73 and R89 say
so as derived). -/
def Obligations.RoundFunctionIsBijective : Prop :=
  ∀ (rc : RoundConstants) (r : BitVec 3), Function.Bijective (fun block : Half => F rc block r) ∧
    ∀ block : Half, F rc block r = 0 ↔ block = (rc[r.toNat]).setWidth 61

/-- A round and its inverse undo each other, and so do four of each, for every table (rule R85, marked derived). -/
def Obligations.RoundsAreInverse : Prop :=
  ∀ (rc : RoundConstants) (lr : Half × Half),
    (∀ r : BitVec 3, feistelUnround rc r (feistelRound rc r lr) = lr ∧ feistelRound rc r (feistelUnround rc r lr) = lr) ∧
      unpermute rc (permute rc lr) = lr ∧ permute rc (unpermute rc lr) = lr

/-- Split and join undo each other on `[0, 2^122)` and pairs of halves (rule R86, marked derived). -/
def Obligations.SplitAndJoinAreInverse : Prop :=
  (∀ x : Index, x.toNat < 2 ^ 122 → joinHalves (splitIndex x) = x) ∧
    ∀ lr : Half × Half, splitIndex (joinHalves lr) = lr ∧ (joinHalves lr).toNat < 2 ^ 122

/-- Pack and extract undo each other on pairs of halves and values with right markers (rule R87, marked derived). -/
def Obligations.PackAndExtractAreInverse : Prop :=
  (∀ lr : Half × Half, markersOk (packHalves lr) = true ∧ extractHalves (packHalves lr) = lr) ∧
    ∀ v : Value, markersOk v = true → packHalves (extractHalves v) = v

/-- Format and parse undo each other between 128-bit values and the accepted strings, which are the hex-with-hyphens strings
(rule R88, marked derived). -/
def Obligations.FormatAndParseAreInverse : Prop :=
  (∀ v : Value, parseText (fmtValue v) = some v) ∧
    (∀ (t : Text) (v : Value), parseText t = some v → fmtValue v = t) ∧
    ∀ t : Text, (parseText t).isSome = true ↔ HexWithHyphens t

/-! ## Forward commands -/

/-- LDIDX copies `idx_in` to `IDX` unchecked and never fails (rule R100). -/
def Obligations.LdidxLoadsTheIndex : Prop :=
  (∀ (x : BitVec 128) (t : BitVec 288), decode ⟨0x4#4, x, t⟩ = .ldidx x) ∧
    ∀ (x : Index) (s : State), exec (.ldidx x) s = .next { s with idx := x, rsp := 0 }

/-- SPLIT raises OutOfRange exactly when `IDX >= 2^122`, that is when its top six bits are not 0, and otherwise writes
`L <- IDX[121:61]`, `R <- IDX[60:0]`, `RND <- 0` (rule R101). -/
def Obligations.SplitChecksAndSplits : Prop :=
  (∀ (x : BitVec 128) (t : BitVec 288), decode ⟨0x6#4, x, t⟩ = .split) ∧
    ∀ s : State,
      (2 ^ 122 ≤ s.idx.toNat ↔ s.idx.extractLsb 127 122 ≠ 0#6) ∧
      exec .split s = .next
        (if 2 ^ 122 ≤ s.idx.toNat then { s with err := if s.err = 0 then 1 else s.err, rsp := 1 }
         else { s with l := s.idx.extractLsb 121 61, r := s.idx.extractLsb 60 0, rnd := 0, rsp := 0 })

/-- ROUND below four applied rounds moves `R` to `L`, XORs `F(R, RND)` into the old `L` and adds one to `RND`; at four or more it
raises IllegalCommand (rule R102). -/
def Obligations.RoundAppliesOneRound : Prop :=
  (∀ (x : BitVec 128) (t : BitVec 288), decode ⟨0x7#4, x, t⟩ = .round) ∧
    ∀ s : State, exec .round s = .next
      (if 4 ≤ s.rnd.toNat then { s with err := if s.err = 0 then 3 else s.err, rsp := 3 }
       else { s with
        l := s.r, r := s.l ^^^ F Config.roundConstants s.r s.rnd, rnd := BitVec.ofNat 3 (s.rnd.toNat + 1), rsp := 0 })

/-- PACK writes the six fields of the identifier value, which always has right markers, whatever `RND` is (rule R103). -/
def Obligations.PackAssemblesTheValue : Prop :=
  (∀ (x : BitVec 128) (t : BitVec 288), decode ⟨0x9#4, x, t⟩ = .pack) ∧
    ∀ s : State, ∃ v : Value,
      v = s.l.extractLsb 60 13 ++ 0b0100#4 ++ s.l.extractLsb 12 1 ++ 0b10#2 ++ s.l.extractLsb 0 0 ++ s.r.extractLsb 60 0 ∧
      v.extractLsb 79 76 = 0b0100#4 ∧ v.extractLsb 63 62 = 0b10#2 ∧
      exec .pack s = .next { s with val := v, rsp := 0 }

/-- FMT writes hyphens at offsets 8, 13, 18, 23 and the lowercase hexadecimal digit of each nibble of `VAL`, the most significant first,
at its place; it checks nothing (rule R104). -/
def Obligations.FmtRendersTheValue : Prop :=
  (∀ (x : BitVec 128) (t : BitVec 288), decode ⟨0xB#4, x, t⟩ = .fmt) ∧
    ∀ s : State, ∃ t : Text,
      exec .fmt s = .next { s with txt := t, rsp := 0 } ∧
      (t[8] = 0x2D#8 ∧ t[13] = 0x2D#8 ∧ t[18] = 0x2D#8 ∧ t[23] = 0x2D#8) ∧
      ∀ j : Fin 32, (t[pos j]).toNat =
        if s.val.toNat / 16 ^ (31 - j.val) % 16 < 10 then 0x30 + s.val.toNat / 16 ^ (31 - j.val) % 16
        else 0x61 + (s.val.toNat / 16 ^ (31 - j.val) % 16 - 10)

/-! ## Inverse commands -/

/-- LDTXT copies the 36 bytes of `txt_in` to `TXT` unchecked and never fails (rule R110). -/
def Obligations.LdtxtLoadsTheText : Prop :=
  (∀ (x : BitVec 128) (w : BitVec 288), ∃ t : Text, decode ⟨0x5#4, x, w⟩ = .ldtxt t ∧
      ∀ k : Fin 36, t[k] = w.extractLsb' (280 - 8 * k.val) 8) ∧
    ∀ (t : Text) (s : State), exec (.ldtxt t) s = .next { s with txt := t, rsp := 0 }

/-- PARSE raises InvalidFormat exactly when `TXT` is not lowercase hex-with-hyphens, and otherwise writes to `VAL` the value whose
digit `j` is the one at `pos(j)` (rule R111, which the spec marks derived and its acceptance set decided, 92 D9). -/
def Obligations.ParseReadsTheValue : Prop :=
  (∀ (x : BitVec 128) (t : BitVec 288), decode ⟨0xC#4, x, t⟩ = .parse) ∧
    ∀ s : State,
      (¬ HexWithHyphens s.txt →
        exec .parse s = .next { s with err := if s.err = 0 then 2 else s.err, rsp := 2 }) ∧
      (HexWithHyphens s.txt → ∃ v : Value, exec .parse s = .next { s with val := v, rsp := 0 } ∧
        ∀ j : Fin 32, v.toNat / 16 ^ (31 - j.val) % 16 = hexDigitNat s.txt[pos j])

/-- EXTRACT raises InvalidFormat exactly when a marker of `VAL` is wrong, and otherwise writes the halves' fields and `RND <- 4` (rule
R112, which the spec marks derived). -/
def Obligations.ExtractChecksAndTakesTheHalves : Prop :=
  (∀ (x : BitVec 128) (t : BitVec 288), decode ⟨0xA#4, x, t⟩ = .extract) ∧
    ∀ s : State, exec .extract s = .next
      (if s.val.extractLsb 79 76 = 0b0100#4 ∧ s.val.extractLsb 63 62 = 0b10#2 then
        { s with
          l := s.val.extractLsb 127 80 ++ s.val.extractLsb 75 64 ++ s.val.extractLsb 61 61
          r := s.val.extractLsb 60 0
          rnd := 4
          rsp := 0 }
       else { s with err := if s.err = 0 then 2 else s.err, rsp := 2 })

/-- UNROUND at one to four applied rounds moves `L` to `R`, XORs `F(L, RND - 1)` into the old `R` and takes one from `RND`; at 0, 5, 6
and 7 it raises IllegalCommand (rule R113, which the spec marks derived). -/
def Obligations.UnroundUndoesOneRound : Prop :=
  (∀ (x : BitVec 128) (t : BitVec 288), decode ⟨0x8#4, x, t⟩ = .unround) ∧
    ∀ s : State, exec .unround s = .next
      (if s.rnd.toNat = 0 ∨ 4 < s.rnd.toNat then { s with err := if s.err = 0 then 3 else s.err, rsp := 3 }
       else { s with
        l := s.r ^^^ F Config.roundConstants s.l (BitVec.ofNat 3 (s.rnd.toNat - 1))
        r := s.l
        rnd := BitVec.ofNat 3 (s.rnd.toNat - 1)
        rsp := 0 })

/-- JOIN writes `IDX[127:122] <- 0`, `IDX[121:61] <- L`, `IDX[60:0] <- R`, whatever `RND` is, and never fails (rule R114, which
the spec marks derived). -/
def Obligations.JoinAssemblesTheIndex : Prop :=
  (∀ (x : BitVec 128) (t : BitVec 288), decode ⟨0xD#4, x, t⟩ = .join) ∧
    ∀ s : State, exec .join s = .next { s with idx := 0#6 ++ s.l ++ s.r, rsp := 0 }

/-- UNROUND directly after a ROUND that completed restores `L`, `R` and `RND`, and so does ROUND directly after UNROUND (rule R113's
corner case, from rule R85; both marked derived). -/
def Obligations.RoundAndUnroundRestoreTheBlock : Prop :=
  ∀ s : State,
    (s.rnd.toNat < 4 → ∃ t, exec .round s = .next t ∧ exec .unround t = .next { s with rsp := 0 }) ∧
    (1 ≤ s.rnd.toNat → s.rnd.toNat ≤ 4 → ∃ t, exec .unround s = .next t ∧ exec .round t = .next { s with rsp := 0 })

/-! ## Macro-commands -/

/-- ENC below `2^122` leaves the index, the permuted halves, `RND = 4`, the packed value and its string, from every state; at `2^122`
and above only `IDX` and the error are written (rule R120). -/
def Obligations.EncMapsIndexToIdentifier : Prop :=
  (∀ (x : BitVec 128) (t : BitVec 288), decode ⟨0x1#4, x, t⟩ = .enc x) ∧
    ∀ (x : Index) (s : State), exec (.enc x) s = .next
      (if 2 ^ 122 ≤ x.toNat then { s with idx := x, err := if s.err = 0 then 1 else s.err, rsp := 1 }
       else { s with
        idx := x
        l := (permute Config.roundConstants (splitIndex x)).1
        r := (permute Config.roundConstants (splitIndex x)).2
        rnd := 4
        val := packHalves (permute Config.roundConstants (splitIndex x))
        txt := fmtValue (packHalves (permute Config.roundConstants (splitIndex x)))
        rsp := 0 })

/-- DEC leaves the index whose split the inverse rounds give, `RND = 0` and the parsed value; when PARSE raises only `TXT` and the error
are written, when EXTRACT raises `VAL` too (rule R121, which the spec marks derived and decided). -/
def Obligations.DecMapsIdentifierToIndex : Prop :=
  (∀ (x : BitVec 128) (w : BitVec 288), ∃ t : Text, decode ⟨0x2#4, x, w⟩ = .dec t ∧
      ∀ k : Fin 36, t[k] = w.extractLsb' (280 - 8 * k.val) 8) ∧
    ∀ (t : Text) (s : State),
      (parseText t = none →
        exec (.dec t) s = .next { s with txt := t, err := if s.err = 0 then 2 else s.err, rsp := 2 }) ∧
      ∀ v : Value, parseText t = some v →
        (markersOk v = false →
          exec (.dec t) s = .next { s with txt := t, val := v, err := if s.err = 0 then 2 else s.err, rsp := 2 }) ∧
        (markersOk v = true → exec (.dec t) s = .next
          { s with
            txt := t
            val := v
            l := (unpermute Config.roundConstants (extractHalves v)).1
            r := (unpermute Config.roundConstants (extractHalves v)).2
            rnd := 0
            idx := joinHalves (unpermute Config.roundConstants (extractHalves v))
            rsp := 0 })

/-- ENC and DEC are equal in effect to issuing their micro-commands one by one with the same inputs and stopping at the first non-zero
status (rule R122). -/
def Obligations.MacroEqualsItsMicroCommands : Prop :=
  (∀ (x : Index) (s : State), exec (.enc x) s =
    issueUntilError [.ldidx x, .split, .round, .round, .round, .round, .pack, .fmt] s) ∧
  ∀ (t : Text) (s : State), exec (.dec t) s =
    issueUntilError [.ldtxt t, .parse, .extract, .unround, .unround, .unround, .unround, .join] s

/-- The status of ENC and the string it leaves are those of the closed form, and depend on `idx_in` alone; likewise DEC's status and the
index it leaves on `txt_in` alone: on no register, not on `ERR`, not on history (rules R123, R124, R127, marked derived). -/
def Obligations.MacroResultsIgnoreThePriorState : Prop :=
  (∀ (x : Index) (s s' : State), ∃ t t', exec (.enc x) s = .next t ∧ exec (.enc x) s' = .next t' ∧ t.rsp = t'.rsp ∧
    match encIndex Config.roundConstants x with
    | .ok u => t.rsp = 0 ∧ t.txt = u ∧ t'.txt = u
    | .error st => st = .outOfRange ∧ t.rsp = 1) ∧
  ∀ (u : Text) (s s' : State), ∃ t t', exec (.dec u) s = .next t ∧ exec (.dec u) s' = .next t' ∧ t.rsp = t'.rsp ∧
    match decText Config.roundConstants u with
    | .ok x => t.rsp = 0 ∧ t.idx = x ∧ t'.idx = x
    | .error st => st = .invalidFormat ∧ t.rsp = 2

/-- Index 0 and index `2^122 - 1` succeed with a well-formed identifier; `2^122` and the largest presentable index, `2^128 - 1`, return
OutOfRange (rule R128). -/
def Obligations.BoundaryIndices : Prop :=
  ∀ s : State,
    (∃ t, exec (.enc 0) s = .next t ∧ t.rsp = 0 ∧ IsIdentifier t.txt) ∧
    (∃ t, exec (.enc 0x3FFFFFFFFFFFFFFFFFFFFFFFFFFFFFF#128) s = .next t ∧ t.rsp = 0 ∧ IsIdentifier t.txt) ∧
    (∃ t, exec (.enc 0x4000000000000000000000000000000#128) s = .next t ∧ t.rsp = 1) ∧
    ∃ t, exec (.enc 0xFFFFFFFFFFFFFFFFFFFFFFFFFFFFFFFF#128) s = .next t ∧ t.rsp = 1

/-- Every identifier ENC produces has the fixed pattern: hyphens, version digit `4`, variant digit one of `8 9 a b`, lowercase digits
elsewhere, and all four fields of text hold whatever the table is (rule R126, marked derived). -/
def Obligations.EncProducesIdentifiers : Prop :=
  ∀ (rc : RoundConstants) (x : Index) (s : State), x.toNat < 2 ^ 122 →
    (after rc (.enc x) s).rsp = 0 ∧ IsIdentifier (after rc (.enc x) s).txt

/-- Every legal index gives a string of rule R59, two different ones never the same, and every such string is the identifier of some
legal index: for every table, ENC is a bijection from `[0, 2^122)` onto those strings (rule R125). -/
def Obligations.EncIsABijectionOntoIdentifiers : Prop :=
  ∀ (rc : RoundConstants) (s : State),
    (∀ x : Index, x.toNat < 2 ^ 122 → IsIdentifier (after rc (.enc x) s).txt) ∧
    (∀ x y : Index, x.toNat < 2 ^ 122 → y.toNat < 2 ^ 122 →
      (after rc (.enc x) s).txt = (after rc (.enc y) s).txt → x = y) ∧
    ∀ u : Text, IsIdentifier u → ∃ x : Index, x.toNat < 2 ^ 122 ∧ (after rc (.enc x) s).txt = u

/-- ENC of a legal index and then DEC of the string it left return OK and the index; DEC of a string it accepts and then ENC of the
index it left return OK and the string (rule R129, marked derived). -/
def Obligations.MacroRoundTrip : Prop :=
  (∀ (x : Index) (s : State), x.toNat < 2 ^ 122 →
    ∃ t u, exec (.enc x) s = .next t ∧ exec (.dec t.txt) t = .next u ∧ t.rsp = 0 ∧ u.rsp = 0 ∧ u.idx = x ∧ u.txt = t.txt) ∧
  ∀ (v : Text) (s : State), ∃ t u, exec (.dec v) s = .next t ∧ exec (.enc t.idx) t = .next u ∧
    (t.rsp = 0 → u.rsp = 0 ∧ u.txt = v ∧ u.idx = t.idx)

/-- DEC accepts exactly the `2^122` identifier strings: its status is OK on them and InvalidFormat on every other text (rule R121's
"exactly when", marked derived and decided, 92 D9). -/
def Obligations.DecAcceptsExactlyIdentifiers : Prop :=
  ∀ (u : Text) (s : State), ∃ t, exec (.dec u) s = .next t ∧ (t.rsp = 0 ↔ IsIdentifier u) ∧ (t.rsp = 2 ↔ ¬ IsIdentifier u)

/-! ## Control commands and reserved opcodes -/

/-- NOP is the identity on the registers and always answers OK (rule R140). -/
def Obligations.NopChangesNoRegister : Prop :=
  (∀ (x : BitVec 128) (t : BitVec 288), decode ⟨0x0#4, x, t⟩ = .nop) ∧
    ∀ s : State, exec .nop s = .next { s with rsp := 0 }

/-- CLR writes every register to 0, `TXT` to 36 bytes `0x00`, clears `ERR`, and leaves exactly the registers reset leaves, whatever the
state before; no other command clears `ERR` (rule R141). -/
def Obligations.ClrReachesTheResetState : Prop :=
  (∀ (x : BitVec 128) (t : BitVec 288), decode ⟨0x3#4, x, t⟩ = .clr) ∧
    ∀ s : State, ∃ t, exec .clr s = .next t ∧
      t = { s with
        idx := 0, l := 0, r := 0, rnd := 0, val := 0, txt := Vector.replicate 36 0x00#8, err := 0, rsp := 0 } ∧
      (t.idx = State.reset.idx ∧ t.l = State.reset.l ∧ t.r = State.reset.r ∧ t.rnd = State.reset.rnd ∧
        t.val = State.reset.val ∧ t.txt = State.reset.txt ∧ t.err = State.reset.err) ∧
      ∀ i : Instr, i ≠ .clr → ∃ u, exec i s = .next u ∧ (s.err ≠ 0 → u.err = s.err)

/-- CLR and reset reach the same state (rule R181), whatever the state before. That reset leaves the response 0 and keeps the host's list
is the model's choice, assumption log 2 and 3. -/
def Obligations.ClrAndResetReachTheSameState : Prop :=
  ∀ s : State, exec .clr s = .next s.applyReset ∧ s.applyReset = { State.reset with program := s.program }

/-- The reserved opcodes raise IllegalCommand in every state and write nothing but `ERR`, alike (rule R142). -/
def Obligations.ReservedOpcodesRaise : Prop :=
  (∀ (x : BitVec 128) (t : BitVec 288), decode ⟨0xE#4, x, t⟩ = .reservedE ∧ decode ⟨0xF#4, x, t⟩ = .reservedF) ∧
    ∀ s : State,
      exec .reservedE s = .next { s with err := if s.err = 0 then 3 else s.err, rsp := 3 } ∧
      exec .reservedF s = .next { s with err := if s.err = 0 then 3 else s.err, rsp := 3 }

/-! ## Whole-machine rules -/

/-- `ERR` holds the first non-zero status since it was last clear: a command other than CLR that ends with status `st` leaves `ERR` at
`st` if it was 0 and as it was otherwise, a success leaves it, CLR clears it; and no command's effect depends on it: with another
`ERR` before, everything but `ERR` is the same after (rules R20, R155). -/
def Obligations.ErrIsStickyAndNeverRead : Prop :=
  ∀ (i : Instr) (s : State) (e : BitVec 2), ∃ t t', exec i s = .next t ∧ exec i { s with err := e } = .next t' ∧
    t.err = (if i = .clr then 0 else if s.err = 0 then t.rsp else s.err) ∧
    { t' with err := t.err } = t

/-- What a raise leaves (rule R154): the raising micro-command writes no register but `ERR`; inside a macro-command the writes of the
micro-commands before it stay, which are `IDX` in ENC, and in DEC `TXT`, and `VAL` when it was EXTRACT that raised. -/
def Obligations.RaisingWritesNoFurtherRegister : Prop :=
  ∀ (i : Instr) (s : State), ∃ t, exec i s = .next t ∧
    (t.rsp ≠ 0 → t.err = (if s.err = 0 then t.rsp else s.err) ∧
      t = match i with
        | .enc x => { s with idx := x, err := t.err, rsp := t.rsp }
        | .dec u => { s with txt := u, val := (parseText u).getD s.val, err := t.err, rsp := t.rsp }
        | _ => { s with err := t.err, rsp := t.rsp })

/-- Each condition has exactly the causes the table of rule R150 names, with the illegal commands of rule R54: code 1 from SPLIT and ENC
on an index of `2^122` or more, code 2 from PARSE, EXTRACT and DEC on a malformed text or wrong markers, code 3 from a reserved
opcode, ROUND at `RND >= 4`, UNROUND at `RND = 0` or above 4. -/
def Obligations.StatusHasExactlyItsCauses : Prop :=
  ∀ (i : Instr) (s : State), ∃ t, exec i s = .next t ∧
    (t.rsp = 1 ↔ (i = .split ∧ 2 ^ 122 ≤ s.idx.toNat) ∨ ∃ x : Index, i = .enc x ∧ 2 ^ 122 ≤ x.toNat) ∧
    (t.rsp = 2 ↔ (i = .parse ∧ ¬ HexWithHyphens s.txt) ∨
      (i = .extract ∧ ¬ (s.val.extractLsb 79 76 = 0b0100#4 ∧ s.val.extractLsb 63 62 = 0b10#2)) ∨
      ∃ u : Text, i = .dec u ∧ ¬ IsIdentifier u) ∧
    (t.rsp = 3 ↔ i = .reservedE ∨ i = .reservedF ∨ (i = .round ∧ 4 ≤ s.rnd.toNat) ∨
      (i = .unround ∧ (s.rnd.toNat = 0 ∨ 4 < s.rnd.toNat)))

/-- The register a command may write, and nothing else (the write sets of rule R25, marked derived): for each register the commands that
can change it; `ERR` beside them by rule R155, the response by every command, the host's list by none. -/
def Obligations.CommandsWriteOnlyTheirRegisters : Prop :=
  ∀ (i : Instr) (s : State), ∃ t, exec i s = .next t ∧ t.program = s.program ∧
    (t.idx ≠ s.idx → i = .clr ∨ i = .join ∨ (∃ x, i = .enc x ∨ i = .ldidx x) ∨ ∃ u, i = .dec u) ∧
    (t.l ≠ s.l ∨ t.r ≠ s.r ∨ t.rnd ≠ s.rnd →
      i = .clr ∨ i = .split ∨ i = .round ∨ i = .unround ∨ i = .extract ∨ (∃ x, i = .enc x) ∨ ∃ u, i = .dec u) ∧
    (t.val ≠ s.val → i = .clr ∨ i = .pack ∨ i = .parse ∨ (∃ x, i = .enc x) ∨ ∃ u, i = .dec u) ∧
    (t.txt ≠ s.txt → i = .clr ∨ i = .fmt ∨ (∃ x, i = .enc x) ∨ ∃ u, i = .dec u ∨ i = .ldtxt u) ∧
    (t.err ≠ s.err → i = .clr ∨ (s.err = 0 ∧ t.rsp ≠ 0 ∧ t.err = t.rsp))

/-- Every command but ROUND and UNROUND is idempotent: the same command with the same inputs issued again leaves the state of issuing
it once and returns the same status; ROUND and UNROUND that complete are not (rule R39, marked derived). -/
def Obligations.AllButRoundsAreIdempotent : Prop :=
  (∀ (i : Instr) (s : State), i ≠ .round → i ≠ .unround → ∃ t, exec i s = .next t ∧ exec i t = .next t) ∧
    (∀ s : State, s.rnd.toNat < 4 → ∃ t, exec .round s = .next t ∧ exec .round t ≠ .next t) ∧
    ∀ s : State, 1 ≤ s.rnd.toNat → s.rnd.toNat ≤ 4 → ∃ t, exec .unround s = .next t ∧ exec .unround t ≠ .next t

/-- Only bits 60 to 0 of `RC[0]` to `RC[3]` can influence anything: under two tables that agree there every command leaves the same
state with the same status, from every state (93 U1, rules R19, R23, R31). -/
def Obligations.OnlyFirstFourConstantsMatter : Prop :=
  ∀ rc rc' : RoundConstants,
    (∀ r : BitVec 3, r.toNat < 4 → (rc[r.toNat]).setWidth 61 = (rc'[r.toNat]).setWidth 61) →
      ∀ (i : Instr) (s : State), after rc i s = after rc' i s

/-- At every legal round count `(L, R)` is `RND` forward rounds of one block, and only the commands that set a block change which: SPLIT and
ENC to the split of the index, EXTRACT to the unpermuted halves of the value, DEC to the halves it leaves, CLR to `(0, 0)`; ROUND,
UNROUND and all others keep it, and so does every refused command (rule R187, marked derived). -/
def Obligations.RoundsKeepTheirBlock : Prop :=
  ∀ (i : Instr) (s : State), RndLegal s → ∃ t, exec i s = .next t ∧
    (t.rsp ≠ 0 → blockOrigin t = blockOrigin s) ∧
    (t.rsp = 0 → blockOrigin t =
      match i with
      | .split => splitIndex s.idx
      | .enc x => splitIndex x
      | .extract => unpermute Config.roundConstants (extractHalves s.val)
      | .dec _ => splitIndex t.idx
      | .clr => (0, 0)
      | _ => blockOrigin s)
end

