-- ==== Sys2Proof/Laws/Datapath.lean ====
section
/-!
SUPPORT. The small laws of the datapath functions: what the mask does, which digit stands where, and which character
spells it.
-/
namespace Sys2Proof.Machine

theorem MASK61_eq : MASK61 = 2 ^ 61 - 1 := by decide

@[simp] theorem mask61_toNat (v : Nat) : (mask61 v).toNat = v % 2 ^ 61 := by
  simp only [mask61, MASK61_eq, BitVec.toNat_ofNat, Nat.and_two_pow_sub_one_eq_mod, Nat.mod_mod]

/-- The mask changes nothing on a 61-bit word (rule R70). -/
@[simp] theorem mask61_self (x : Half) : mask61 x.toNat = x := by
  apply BitVec.eq_of_toNat_eq; simp only [mask61_toNat]; omega

theorem mask61_getLsbD (v i : Nat) : (mask61 v).getLsbD i = (decide (i < 61) && v.testBit i) := by
  rw [BitVec.getLsbD, mask61_toNat, Nat.testBit_mod_two_pow]

/-- The product kept modulo `2^61` (rule R72). Cite this: unfolding `x.toNat * MULT` makes the kernel count. -/
theorem mulmask_toNat (x : Half) : (mulmask x).toNat = x.toNat * 0x6c8e944d1f5aa3b7 % 2 ^ 61 := by
  rw [mulmask, mask61_toNat]; rfl

theorem mask61_romRead (rc : RoundConstants) (r : BitVec 3) : mask61 (romRead rc r).toNat = (rc[r.toNat]).setWidth 61 := by
  apply BitVec.eq_of_toNat_eq; rw [mask61_toNat]; simp [romRead]

/-- The round function without the masks that change nothing (rule R73). -/
theorem F_eq (rc : RoundConstants) (block : Half) (r : BitVec 3) :
    F rc block r = rotl61 (mulmask (rotl61 (block ^^^ (rc[r.toNat]).setWidth 61) 7)) 13 := by
  simp only [F, mask61_self, mask61_romRead, ROT_A, ROT_B]

theorem joinHalves_toNat (lr : Half × Half) : (joinHalves lr).toNat = lr.1.toNat * 2 ^ 61 + lr.2.toNat := by
  have h1 := lr.1.isLt
  have h2 := lr.2.isLt
  rw [joinHalves, BitVec.toNat_ofNat, ← Nat.shiftLeft_add_eq_or_of_lt h2, Nat.shiftLeft_eq]
  omega

theorem DOMAIN_eq : DOMAIN = 2 ^ 122 := by decide

theorem inDomain_iff (x : Index) : inDomain x = true ↔ x.toNat < 2 ^ 122 := by
  simp only [inDomain, DOMAIN_eq, decide_eq_true_eq]

theorem digit_toNat (v : Value) (j : Nat) : (digit v j).toNat = v.toNat / 2 ^ (124 - 4 * j) % 16 := by
  simp [digit, Nat.shiftRight_eq_div_pow]

/-- Digit `j` in powers of 16, the form the laws of numbers from digits have. -/
theorem digit_toNat_pow (v : Value) {j : Nat} (h : j < 32) : (digit v j).toNat = v.toNat / 16 ^ (32 - 1 - j) % 16 := by
  have e : (16 : Nat) ^ (32 - 1 - j) = 2 ^ (124 - 4 * j) := by
    rw [show (16 : Nat) = 2 ^ 4 from rfl, ← pow_mul]; congr 1; omega
  rw [digit_toNat, e]

/-! ## Places of the digits -/

theorem isHyphenOffset_pos (j : Fin 32) : isHyphenOffset (pos j).val = false := by revert j; decide

theorem digitAt_pos (j : Fin 32) : digitAt (pos j).val = j.val := by revert j; decide

theorem pos_digitAt (k : Fin 36) (h : isHyphenOffset k.val = false) : posNat (digitAt k.val) = k.val := by
  revert k; decide

theorem digitAt_lt (k : Fin 36) (h : isHyphenOffset k.val = false) : digitAt k.val < 32 := by revert k; decide

/-! ## Characters -/

theorem hexval_hexchar (n : Nibble) : hexval (hexchar n) = some n := by revert n; decide

theorem hexchar_of_hexval {c : Byte} {n : Nibble} (h : hexval c = some n) : hexchar n = c := by
  revert n; revert c; decide

theorem hexval_isSome (c : Byte) :
    (hexval c).isSome = true ↔ (0x30 ≤ c.toNat ∧ c.toNat ≤ 0x39) ∨ (0x61 ≤ c.toNat ∧ c.toNat ≤ 0x66) := by
  revert c; decide

theorem fmtValue_get (v : Value) (k : Fin 36) : (fmtValue v)[k] = fmtChar v k.val := by simp [fmtValue]

theorem textOk_iff_charOk (t : Text) : textOk t = true ↔ ∀ k, charOk t k = true := by simp [textOk]

theorem textDigit_lt (t : Text) (j : Nat) : textDigit t j < 16 := by
  unfold textDigit; split <;> [exact BitVec.isLt _; omega]

/-! ## Numbers from digits -/

theorem digitsNat_lt {f : Nat → Nat} (hf : ∀ j, f j < 16) (n : Nat) : digitsNat f n < 16 ^ n := by
  induction n with
  | zero => simp [digitsNat]
  | succ n ih => have := hf n; simp only [digitsNat, pow_succ]; omega

/-- The digits of `digitsNat` are the digits it was made of. -/
theorem digitsNat_digit {f : Nat → Nat} (hf : ∀ j, f j < 16) (n j : Nat) (h : j < n) :
    digitsNat f n / 16 ^ (n - 1 - j) % 16 = f j := by
  induction n with
  | zero => omega
  | succ n ih =>
    have hn := hf n
    rcases Nat.lt_or_ge j n with hj | hj
    · have he : n + 1 - 1 - j = (n - 1 - j) + 1 := by omega
      rw [he, pow_succ', ← Nat.div_div_eq_div_mul, digitsNat]
      rw [show (digitsNat f n * 16 + f n) / 16 = digitsNat f n by omega]
      exact ih hj
    · have he : j = n := by omega
      subst he
      simp only [digitsNat, Nat.add_sub_cancel, Nat.sub_self, pow_zero, Nat.div_one]
      omega

/-- A number below `16 ^ n` is made of its own digits. -/
theorem digitsNat_of_digits {f : Nat → Nat} (v n : Nat) (h : ∀ j < n, f j = v / 16 ^ (n - 1 - j) % 16) :
    digitsNat f n = v % 16 ^ n := by
  induction n generalizing v with
  | zero => simp [digitsNat, Nat.mod_one]
  | succ n ih =>
    have h1 : digitsNat f n = v / 16 % 16 ^ n := by
      apply ih
      intro j hj
      rw [h j (by omega), show n + 1 - 1 - j = (n - 1 - j) + 1 by omega, pow_succ', ← Nat.div_div_eq_div_mul]
    have h2 : f n = v % 16 := by simpa using h n (by omega)
    rw [digitsNat, h1, h2, pow_succ', Nat.mod_mul]
    omega

end Sys2Proof.Machine
end

