-- ==== Sys2Proof/Laws/State.lean ====
section
/-!
SUPPORT. One lemma per field of the state for each update of Machine/Ops.lean, so that no proof unfolds a record update.
-/
namespace Sys2Proof.Machine

@[simp] theorem State.withIdx_idx (s : State) (x : Index) : (s.withIdx x).idx = x := rfl
@[simp] theorem State.withIdx_l (s : State) (x : Index) : (s.withIdx x).l = s.l := rfl
@[simp] theorem State.withIdx_r (s : State) (x : Index) : (s.withIdx x).r = s.r := rfl
@[simp] theorem State.withIdx_rnd (s : State) (x : Index) : (s.withIdx x).rnd = s.rnd := rfl
@[simp] theorem State.withIdx_val (s : State) (x : Index) : (s.withIdx x).val = s.val := rfl
@[simp] theorem State.withIdx_txt (s : State) (x : Index) : (s.withIdx x).txt = s.txt := rfl
@[simp] theorem State.withIdx_err (s : State) (x : Index) : (s.withIdx x).err = s.err := rfl
@[simp] theorem State.withIdx_rsp (s : State) (x : Index) : (s.withIdx x).rsp = s.rsp := rfl
@[simp] theorem State.withIdx_program (s : State) (x : Index) : (s.withIdx x).program = s.program := rfl

@[simp] theorem State.withBlock_idx (s : State) (lr : Half × Half) (n : BitVec 3) : (s.withBlock lr n).idx = s.idx := rfl
@[simp] theorem State.withBlock_l (s : State) (lr : Half × Half) (n : BitVec 3) : (s.withBlock lr n).l = lr.1 := rfl
@[simp] theorem State.withBlock_r (s : State) (lr : Half × Half) (n : BitVec 3) : (s.withBlock lr n).r = lr.2 := rfl
@[simp] theorem State.withBlock_rnd (s : State) (lr : Half × Half) (n : BitVec 3) : (s.withBlock lr n).rnd = n := rfl
@[simp] theorem State.withBlock_val (s : State) (lr : Half × Half) (n : BitVec 3) : (s.withBlock lr n).val = s.val := rfl
@[simp] theorem State.withBlock_txt (s : State) (lr : Half × Half) (n : BitVec 3) : (s.withBlock lr n).txt = s.txt := rfl
@[simp] theorem State.withBlock_err (s : State) (lr : Half × Half) (n : BitVec 3) : (s.withBlock lr n).err = s.err := rfl
@[simp] theorem State.withBlock_rsp (s : State) (lr : Half × Half) (n : BitVec 3) : (s.withBlock lr n).rsp = s.rsp := rfl
@[simp] theorem State.withBlock_program (s : State) (lr : Half × Half) (n : BitVec 3) : (s.withBlock lr n).program = s.program := rfl

@[simp] theorem State.withVal_idx (s : State) (v : Value) : (s.withVal v).idx = s.idx := rfl
@[simp] theorem State.withVal_l (s : State) (v : Value) : (s.withVal v).l = s.l := rfl
@[simp] theorem State.withVal_r (s : State) (v : Value) : (s.withVal v).r = s.r := rfl
@[simp] theorem State.withVal_rnd (s : State) (v : Value) : (s.withVal v).rnd = s.rnd := rfl
@[simp] theorem State.withVal_val (s : State) (v : Value) : (s.withVal v).val = v := rfl
@[simp] theorem State.withVal_txt (s : State) (v : Value) : (s.withVal v).txt = s.txt := rfl
@[simp] theorem State.withVal_err (s : State) (v : Value) : (s.withVal v).err = s.err := rfl
@[simp] theorem State.withVal_rsp (s : State) (v : Value) : (s.withVal v).rsp = s.rsp := rfl
@[simp] theorem State.withVal_program (s : State) (v : Value) : (s.withVal v).program = s.program := rfl

@[simp] theorem State.withTxt_idx (s : State) (t : Text) : (s.withTxt t).idx = s.idx := rfl
@[simp] theorem State.withTxt_l (s : State) (t : Text) : (s.withTxt t).l = s.l := rfl
@[simp] theorem State.withTxt_r (s : State) (t : Text) : (s.withTxt t).r = s.r := rfl
@[simp] theorem State.withTxt_rnd (s : State) (t : Text) : (s.withTxt t).rnd = s.rnd := rfl
@[simp] theorem State.withTxt_val (s : State) (t : Text) : (s.withTxt t).val = s.val := rfl
@[simp] theorem State.withTxt_txt (s : State) (t : Text) : (s.withTxt t).txt = t := rfl
@[simp] theorem State.withTxt_err (s : State) (t : Text) : (s.withTxt t).err = s.err := rfl
@[simp] theorem State.withTxt_rsp (s : State) (t : Text) : (s.withTxt t).rsp = s.rsp := rfl
@[simp] theorem State.withTxt_program (s : State) (t : Text) : (s.withTxt t).program = s.program := rfl

@[simp] theorem State.complete_idx (s : State) (st : Status) : (s.complete st).idx = s.idx := rfl
@[simp] theorem State.complete_l (s : State) (st : Status) : (s.complete st).l = s.l := rfl
@[simp] theorem State.complete_r (s : State) (st : Status) : (s.complete st).r = s.r := rfl
@[simp] theorem State.complete_rnd (s : State) (st : Status) : (s.complete st).rnd = s.rnd := rfl
@[simp] theorem State.complete_val (s : State) (st : Status) : (s.complete st).val = s.val := rfl
@[simp] theorem State.complete_txt (s : State) (st : Status) : (s.complete st).txt = s.txt := rfl
@[simp] theorem State.complete_err (s : State) (st : Status) : (s.complete st).err = stickyErr s.err st := rfl
@[simp] theorem State.complete_rsp (s : State) (st : Status) : (s.complete st).rsp = st.code := rfl
@[simp] theorem State.complete_program (s : State) (st : Status) : (s.complete st).program = s.program := rfl

@[simp] theorem State.cleared_idx (s : State) : s.cleared.idx = 0 := rfl
@[simp] theorem State.cleared_l (s : State) : s.cleared.l = 0 := rfl
@[simp] theorem State.cleared_r (s : State) : s.cleared.r = 0 := rfl
@[simp] theorem State.cleared_rnd (s : State) : s.cleared.rnd = 0 := rfl
@[simp] theorem State.cleared_val (s : State) : s.cleared.val = 0 := rfl
@[simp] theorem State.cleared_txt (s : State) : s.cleared.txt = Vector.replicate 36 0 := rfl
@[simp] theorem State.cleared_err (s : State) : s.cleared.err = 0 := rfl
@[simp] theorem State.cleared_rsp (s : State) : s.cleared.rsp = s.rsp := rfl
@[simp] theorem State.cleared_program (s : State) : s.cleared.program = s.program := rfl

@[simp] theorem State.applyReset_idx (s : State) : s.applyReset.idx = 0 := rfl
@[simp] theorem State.applyReset_l (s : State) : s.applyReset.l = 0 := rfl
@[simp] theorem State.applyReset_r (s : State) : s.applyReset.r = 0 := rfl
@[simp] theorem State.applyReset_rnd (s : State) : s.applyReset.rnd = 0 := rfl
@[simp] theorem State.applyReset_val (s : State) : s.applyReset.val = 0 := rfl
@[simp] theorem State.applyReset_txt (s : State) : s.applyReset.txt = Vector.replicate 36 0 := rfl
@[simp] theorem State.applyReset_err (s : State) : s.applyReset.err = 0 := rfl
@[simp] theorem State.applyReset_rsp (s : State) : s.applyReset.rsp = 0 := rfl
@[simp] theorem State.applyReset_program (s : State) : s.applyReset.program = s.program := rfl

@[simp] theorem State.issueFirst_idx (s : State) (w : PortWord) : (s.issueFirst w).idx = s.idx := rfl
@[simp] theorem State.issueFirst_l (s : State) (w : PortWord) : (s.issueFirst w).l = s.l := rfl
@[simp] theorem State.issueFirst_r (s : State) (w : PortWord) : (s.issueFirst w).r = s.r := rfl
@[simp] theorem State.issueFirst_rnd (s : State) (w : PortWord) : (s.issueFirst w).rnd = s.rnd := rfl
@[simp] theorem State.issueFirst_val (s : State) (w : PortWord) : (s.issueFirst w).val = s.val := rfl
@[simp] theorem State.issueFirst_txt (s : State) (w : PortWord) : (s.issueFirst w).txt = s.txt := rfl
@[simp] theorem State.issueFirst_err (s : State) (w : PortWord) : (s.issueFirst w).err = s.err := rfl
@[simp] theorem State.issueFirst_rsp (s : State) (w : PortWord) : (s.issueFirst w).rsp = s.rsp := rfl
@[simp] theorem State.issueFirst_program (s : State) (w : PortWord) : (s.issueFirst w).program = w :: s.program := rfl

/-- Two states with equal fields are equal. -/
theorem State.ext_fields {s t : State} (h1 : s.idx = t.idx) (h2 : s.l = t.l) (h3 : s.r = t.r) (h4 : s.rnd = t.rnd)
    (h5 : s.val = t.val) (h6 : s.txt = t.txt) (h7 : s.err = t.err) (h8 : s.rsp = t.rsp) (h9 : s.program = t.program) :
    s = t := by
  cases s; cases t; simp_all

end Sys2Proof.Machine
end

