-- ==== Sys2Proof/Laws/Ops.lean ====
section
/-!
SUPPORT. What each shared operation can do, said once: completing, raising, running a sequence, answering, each
micro-command, and a step.
-/
namespace Sys2Proof.Machine

/-! ## Status codes and the sticky flag -/

@[simp] theorem Status.code_ok : Status.ok.code = 0 := rfl
@[simp] theorem Status.code_outOfRange : Status.outOfRange.code = 1 := rfl
@[simp] theorem Status.code_invalidFormat : Status.invalidFormat.code = 2 := rfl
@[simp] theorem Status.code_illegalCommand : Status.illegalCommand.code = 3 := rfl

theorem Status.code_eq_zero {st : Status} : st.code = 0 ↔ st = .ok := by cases st <;> decide

@[simp] theorem stickyErr_ok (e : BitVec 2) : stickyErr e .ok = e := by simp [stickyErr]

theorem stickyErr_of_ne_ok (e : BitVec 2) {st : Status} (h : st ≠ .ok) :
    stickyErr e st = if e = 0 then st.code else e := by simp [stickyErr, h]

/-- A command that completes leaves `ERR` (rule R155). -/
theorem State.complete_ok (s : State) : s.complete .ok = { s with rsp := 0 } := by
  rw [State.complete, stickyErr_ok]; rfl

/-- A command that raises sets `ERR` if it was 0 (rule R155). -/
theorem State.complete_raise (s : State) {st : Status} (h : st ≠ .ok) :
    s.complete st = { s with err := if s.err = 0 then st.code else s.err, rsp := st.code } := by
  rw [State.complete, stickyErr_of_ne_ok _ h]

/-! ## Completing, raising, sequencing -/

@[simp] theorem done_fst (s : State) : (done s).1 = s := rfl
@[simp] theorem done_snd (s : State) : (done s).2 = .ok := rfl
@[simp] theorem raise_fst (x : Status) (s : State) : (raise x s).1 = s := rfl
@[simp] theorem raise_snd (x : Status) (s : State) : (raise x s).2 = x := rfl

@[simp] theorem runSeq_nil (s : State) : runSeq [] s = done s := rfl

theorem runSeq_cons_ok {m : Micro} {ms : List Micro} {s : State} (h : (m s).2 = .ok) :
    runSeq (m :: ms) s = runSeq ms (m s).1 := by simp [runSeq, h]

theorem runSeq_cons_raise {m : Micro} {ms : List Micro} {s : State} (h : (m s).2 ≠ .ok) :
    runSeq (m :: ms) s = m s := by
  unfold runSeq; revert h; rcases m s with ⟨t, _ | _ | _ | _⟩ <;> simp

/-- What holds between the states before and after each stage, and composes, holds across the sequence. -/
theorem runSeq_rel {P : State → State → Prop} (refl : ∀ s, P s s) (trans : ∀ a b c, P a b → P b c → P a c)
    (ms : List Micro) (h : ∀ m ∈ ms, ∀ s, P s (m s).1) (s : State) : P s (runSeq ms s).1 := by
  induction ms generalizing s with
  | nil => exact refl s
  | cons m ms ih =>
    by_cases hk : (m s).2 = .ok
    · rw [runSeq_cons_ok hk]
      exact trans _ _ _ (h m (by simp) s) (ih (fun m' hm => h m' (by simp [hm])) _)
    · rw [runSeq_cons_raise hk]
      exact h m (by simp) s

/-! ## The micro-commands -/

theorem microNop_eq (s : State) : microNop s = done s := rfl
theorem microClr_eq (s : State) : microClr s = done s.cleared := rfl
theorem microReservedE_eq (s : State) : microReservedE s = raise .illegalCommand s := rfl
theorem microReservedF_eq (s : State) : microReservedF s = raise .illegalCommand s := rfl
theorem microLdidx_eq (x : Index) (s : State) : microLdidx x s = done (s.withIdx x) := rfl
theorem microLdtxt_eq (t : Text) (s : State) : microLdtxt t s = done (s.withTxt t) := rfl
theorem microPack_eq (s : State) : microPack s = done (s.withVal (packHalves (s.l, s.r))) := rfl
theorem microFmt_eq (s : State) : microFmt s = done (s.withTxt (fmtValue s.val)) := rfl
theorem microJoin_eq (s : State) : microJoin s = done (s.withIdx (joinHalves (s.l, s.r))) := rfl

theorem microSplit_of_lt {s : State} (h : inDomain s.idx = true) :
    microSplit s = done (s.withBlock (splitIndex s.idx) 0) := by simp [microSplit, h]

theorem microSplit_of_ge {s : State} (h : inDomain s.idx = false) : microSplit s = raise .outOfRange s := by
  simp [microSplit, h]

theorem microRound_of_lt {rc : RoundConstants} {s : State} (h : s.rnd.toNat < 4) :
    microRound rc s = done (s.withBlock (feistelRound rc s.rnd (s.l, s.r)) (s.rnd + 1)) := by
  simp [microRound, ROUNDS, Nat.not_le.mpr h]

theorem microRound_of_ge {rc : RoundConstants} {s : State} (h : 4 ≤ s.rnd.toNat) :
    microRound rc s = raise .illegalCommand s := by simp [microRound, ROUNDS, h]

theorem microUnround_of_legal {rc : RoundConstants} {s : State} (h0 : s.rnd ≠ 0) (h4 : s.rnd.toNat ≤ 4) :
    microUnround rc s = done (s.withBlock (feistelUnround rc (s.rnd - 1) (s.l, s.r)) (s.rnd - 1)) := by
  simp only [microUnround, ROUNDS, h0, Nat.not_lt.mpr h4, or_self, if_false]

theorem microUnround_of_illegal {rc : RoundConstants} {s : State} (h : s.rnd = 0 ∨ 4 < s.rnd.toNat) :
    microUnround rc s = raise .illegalCommand s := by simp only [microUnround, ROUNDS, h, if_true]

theorem microParse_of_some {s : State} {v : Value} (h : parseText s.txt = some v) :
    microParse s = done (s.withVal v) := by simp [microParse, h]

theorem microParse_of_none {s : State} (h : parseText s.txt = none) : microParse s = raise .invalidFormat s := by
  simp [microParse, h]

theorem microExtract_of_ok {s : State} (h : markersOk s.val = true) :
    microExtract s = done (s.withBlock (extractHalves s.val) 4) := by simp [microExtract, h]

theorem microExtract_of_bad {s : State} (h : markersOk s.val = false) : microExtract s = raise .invalidFormat s := by
  simp [microExtract, h]

/-! ## Commands and steps -/

/-- What a command can do: it answers the next state the engine of rule R7 gives under this engine's constants. -/
theorem exec_eq_after (i : Instr) (s : State) : exec i s = .next (after Config.roundConstants i s) := by
  cases i <;> rfl

/-- What a step can do when the host issues nothing. -/
theorem step_of_idle {s : State} (h : s.program = []) : step s = .next s := by
  simp [step, State.takeCommand, h]

/-- What a step can do when the host issues a command. -/
theorem step_of_command {s : State} {w : PortWord} {rest : List PortWord} (h : s.program = w :: rest) :
    step s = .next (after Config.roundConstants (decode w) { s with program := rest }) := by
  simp [step, State.takeCommand, h, exec_eq_after]

end Sys2Proof.Machine
end

