-- ==== Sys2Proof/Laws/PerInstr.lean ====
section
/-!
SUPPORT. What holds of every command as syntax, one lemma per constructor: its port word is canonical (the ports the
command ignores carry 0, rule R50) and holds its opcode, and the command is well-formed.
-/
namespace Sys2Proof.Laws.CanonicalEncoding

/-- The encoder's word of a well-formed command. -/
def Statement (i : Instr) : Prop :=
  (encode i).canonical = true ∧ (encode i).op = opcode i ∧ i.wellFormed = true

theorem nop : Statement .nop := by simp [Statement, encode, opcode, PortWord.canonical, idxOperand, txtOperand, Instr.wellFormed]
theorem enc (x : Index) : Statement (.enc x) := by
  simp [Statement, encode, opcode, PortWord.canonical, txtOperand, samplesIdx, Instr.wellFormed]
theorem dec (t : Text) : Statement (.dec t) := by
  simp [Statement, encode, opcode, PortWord.canonical, idxOperand, samplesTxt, Instr.wellFormed]
theorem clr : Statement .clr := by simp [Statement, encode, opcode, PortWord.canonical, idxOperand, txtOperand, Instr.wellFormed]
theorem ldidx (x : Index) : Statement (.ldidx x) := by
  simp [Statement, encode, opcode, PortWord.canonical, txtOperand, samplesIdx, Instr.wellFormed]
theorem ldtxt (t : Text) : Statement (.ldtxt t) := by
  simp [Statement, encode, opcode, PortWord.canonical, idxOperand, samplesTxt, Instr.wellFormed]
theorem split : Statement .split := by simp [Statement, encode, opcode, PortWord.canonical, idxOperand, txtOperand, Instr.wellFormed]
theorem round : Statement .round := by simp [Statement, encode, opcode, PortWord.canonical, idxOperand, txtOperand, Instr.wellFormed]
theorem unround : Statement .unround := by simp [Statement, encode, opcode, PortWord.canonical, idxOperand, txtOperand, Instr.wellFormed]
theorem pack : Statement .pack := by simp [Statement, encode, opcode, PortWord.canonical, idxOperand, txtOperand, Instr.wellFormed]
theorem extract : Statement .extract := by simp [Statement, encode, opcode, PortWord.canonical, idxOperand, txtOperand, Instr.wellFormed]
theorem fmt : Statement .fmt := by simp [Statement, encode, opcode, PortWord.canonical, idxOperand, txtOperand, Instr.wellFormed]
theorem parse : Statement .parse := by simp [Statement, encode, opcode, PortWord.canonical, idxOperand, txtOperand, Instr.wellFormed]
theorem join : Statement .join := by simp [Statement, encode, opcode, PortWord.canonical, idxOperand, txtOperand, Instr.wellFormed]
theorem reservedE : Statement .reservedE := by simp [Statement, encode, opcode, PortWord.canonical, idxOperand, txtOperand, Instr.wellFormed]
theorem reservedF : Statement .reservedF := by simp [Statement, encode, opcode, PortWord.canonical, idxOperand, txtOperand, Instr.wellFormed]

end Sys2Proof.Laws.CanonicalEncoding
end

