-- ==== Sys2Proof/Tests/Slice0.lean ====
section
/-!
SUPPORT. The model's own tests. Expected results are those of spec/95_test_vectors.md, named by their vector in each
docstring, or read off a rule; texts are written as their port, offset 0 first (rule R34). Then one witness for each
obligation with hypotheses or cases.
-/
namespace Sys2Proof.Tests

open Sys2Proof Sys2Proof.Machine

/-- The test-only table CFG_Z of 95 section 2. -/
def cfgZ : RoundConstants := Vector.replicate 8 0

/-- The test-only table CFG_T of 95 section 2. -/
def cfgT : RoundConstants :=
  #v[0xFFFFFFFFFFFFFFFF, 0x0123456789ABCDEF, 0xFEDCBA9876543210, 0x8000000000000001, 0xDEADBEEFDEADBEEF, 0, 1, 2]

/-! ## Well-formedness: an ill-formed command for each check, which the check refuses (rule R60) -/

theorem test_wf_index_too_large : (AsmCommand.enc (2 ^ 128)).wellFormed = false := by decide
theorem test_wf_loaded_index_too_large : (AsmCommand.ldidx (2 ^ 128)).wellFormed = false := by decide
theorem test_wf_index_largest : (AsmCommand.enc (2 ^ 128 - 1)).wellFormed = true := by decide
theorem test_wf_text_too_short : (AsmCommand.dec (List.replicate 35 0x30)).wellFormed = false := by decide
theorem test_wf_text_too_long : (AsmCommand.ldtxt (List.replicate 37 0x30)).wellFormed = false := by decide
theorem test_wf_opcode_too_large : (AsmCommand.dotOp 16).wellFormed = false := by decide
theorem test_ill_formed_does_not_assemble : (AsmCommand.dotOp 16).assemble = none := by decide

/-! ## Decoding: each opcode written bit by bit from the map of rule R51 -/

theorem test_decode_nop : decode ⟨0b0000#4, 1, 2⟩ = .nop := by decide
theorem test_decode_enc : decode ⟨0b0001#4, 0x0123456789ABCDEF#128, 2⟩ = .enc 0x0123456789ABCDEF#128 := by decide
theorem test_decode_dec : decode ⟨0b0010#4, 1, 2⟩ = .dec (textOfPort 2) := rfl
theorem test_decode_clr : decode ⟨0b0011#4, 1, 2⟩ = .clr := by decide
theorem test_decode_ldidx : decode ⟨0b0100#4, 5, 2⟩ = .ldidx 5 := by decide
theorem test_decode_ldtxt : decode ⟨0b0101#4, 1, 2⟩ = .ldtxt (textOfPort 2) := rfl
theorem test_decode_split : decode ⟨0b0110#4, 1, 2⟩ = .split := by decide
theorem test_decode_round : decode ⟨0b0111#4, 1, 2⟩ = .round := by decide
theorem test_decode_unround : decode ⟨0b1000#4, 1, 2⟩ = .unround := by decide
theorem test_decode_pack : decode ⟨0b1001#4, 1, 2⟩ = .pack := by decide
theorem test_decode_extract : decode ⟨0b1010#4, 1, 2⟩ = .extract := by decide
theorem test_decode_fmt : decode ⟨0b1011#4, 1, 2⟩ = .fmt := by decide
theorem test_decode_parse : decode ⟨0b1100#4, 1, 2⟩ = .parse := by decide
theorem test_decode_join : decode ⟨0b1101#4, 1, 2⟩ = .join := by decide
theorem test_decode_reservedE : decode ⟨0b1110#4, 1, 2⟩ = .reservedE := by decide
theorem test_decode_reservedF : decode ⟨0b1111#4, 1, 2⟩ = .reservedF := by decide

/-- Rule R34: offset 0 is the most significant byte of the port, offset 35 the least. -/
theorem test_text_port_ends :
    (textOfPort 0x65663463366330312D306138632D343631332D626133622D323439303363633737653563#288)[0] = 0x65#8 ∧
      (textOfPort 0x65663463366330312D306138632D343631332D626133622D323439303363633737653563#288)[8] = 0x2D#8 ∧
      (textOfPort 0x65663463366330312D306138632D343631332D626133622D323439303363633737653563#288)[35] = 0x63#8 := by decide +kernel

/-- The port of a text and back. -/
theorem test_text_port_round_trip :
    portOfText (textOfPort 0x65663463366330312D306138632D343631332D626133622D323439303363633737653563#288) = 0x65663463366330312D306138632D343631332D626133622D323439303363633737653563#288 := by decide +kernel

/-- The opcode table's bits 3..0, everything above them 0. -/
theorem test_table_word_split : decodeTableWord 8 6 = some .split := by decide +kernel
theorem test_table_word_enc_operand : decodeTableWord 136 (1 + 16 * 5) = some (.enc 5) := by decide +kernel
theorem test_table_word_too_long : decodeTableWord 424 (16 * (2 ^ 208 * 2 ^ 208)) = none := by decide +kernel

/-! ## Assembler lines (rule R60) -/

theorem test_assemble_decimal : assembleLine "ENC 5 ; five".toList = .ok (some ⟨0x1#4, 5, 0⟩) := rfl
theorem test_assemble_hexadecimal : assembleLine "LDIDX 0x1f".toList = .ok (some ⟨0x4#4, 31, 0⟩) := rfl
theorem test_assemble_text : assembleLine "LDTXT \"ef4c6c01-0a8c-4613-ba3b-24903cc77e5c\"".toList =
    .ok (some ⟨0x5#4, 0, 0x65663463366330312D306138632D343631332D626133622D323439303363633737653563#288⟩) := rfl
theorem test_assemble_bare_opcode : assembleLine ".op 14".toList = .ok (some ⟨0xE#4, 0, 0⟩) := rfl
theorem test_assemble_comment : assembleLine "  ; nothing".toList = .ok none := rfl
theorem test_assemble_opcode_too_large : assembleLine ".op 16".toList = .error .operandDoesNotFit := rfl
theorem test_assemble_unknown : assembleLine "ADD 1".toList = .error .unknownMnemonic := rfl

/-! ## Datapath functions -/

/-- MK6. -/
theorem test_mask61 : mask61 0xFEDCBA9876543210 = 0x1EDCBA9876543210#61 := by decide
/-- RT5: the top bit comes back at bit 6, which a 64-bit rotation would not give. -/
theorem test_rotl61 : rotl61 0x1000000000000000#61 7 = 0x40#61 := by decide
/-- MU10. -/
theorem test_mulmask : mulmask 0x11A2B3C4D5E6F784#61 = 0x15A7C3C6F81BFB5C#61 := by decide
/-- F6: an entry with bits 63 to 61 set. -/
theorem test_F_masks_the_constant : F cfgT 0 0 = 0x0D765C14AB893371#61 := by decide +kernel
/-- F18. -/
theorem test_F_entry_two : F cfgT 0x1FFFFFFFFFFFFFFF#61 2 = 0x1878DF037F6B95A7#61 := by decide +kernel
/-- MO3, MO2. -/
theorem test_markersOk : markersOk 0x00000000000050008000000000000000#128 = false ∧
    markersOk 0x00000000000040008000000000000000#128 = true := by decide
/-- PA4, PA11, PA13: upper case, a hyphen in a digit's place, and the reset text are refused. -/
theorem test_parse_refuses : parseText (textOfPort 0x45463443364330312D304138432D343631332D424133422D323439303343433737453543#288) = none ∧
    parseText (textOfPort 0x30303030303030302D303030302D343030302D383030302D303030303030303030302D30#288) = none ∧ parseText State.reset.txt = none := by decide +kernel

/-! ## One command each -/

/-- CT2: NOP leaves a set ERR and the index. -/
theorem test_nop : exec .nop { State.reset with idx := 5, err := 1 } = .next { State.reset with idx := 5, err := 1 } := rfl

/-- E2t. -/
theorem test_enc_one : (after cfgT (.enc 1) State.reset).txt = (textOfPort 0x65663463366330312D306138632D343631332D626133622D323439303363633737653563#288) ∧
    (after cfgT (.enc 1) State.reset).val = 0xEF4C6C010A8C4613BA3B24903CC77E5C#128 := by decide +kernel

/-- E9 with ERR set before: only IDX moves. -/
theorem test_enc_out_of_range : after cfgT (.enc 0x4000000000000000000000000000000#128) { State.reset with err := 3, r := 9 } =
    { State.reset with idx := 0x4000000000000000000000000000000#128, err := 3, r := 9, rsp := 1 } := by decide +kernel

/-- D2: the same text under another table than D1's. -/
theorem test_dec_under_T :
    (after cfgT (.dec (textOfPort 0x30303030303030302D303030302D343030302D383030302D303030303030303030303030#288)) State.reset).idx = 0x02D08613B59A2B20706D3275C9F8ECF2#128 := by
  decide +kernel

/-- D12: EXTRACT raises, the parsed value stays. -/
theorem test_dec_wrong_version : after cfgT (.dec (textOfPort 0x30303030303030302D303030302D353030302D383030302D303030303030303030303030#288)) State.reset =
    { State.reset with txt := (textOfPort 0x30303030303030302D303030302D353030302D383030302D303030303030303030303030#288), val := 0x00000000000050008000000000000000#128, err := 2,
                       rsp := 2 } := by decide +kernel

/-- CT3. -/
theorem test_clr : exec .clr { State.reset with idx := 5, rnd := 7, err := 1 } = .next State.reset := rfl

/-- FW3: the largest operand is loaded unchecked. -/
theorem test_ldidx : exec (.ldidx 0xFFFFFFFFFFFFFFFFFFFFFFFFFFFFFFFF#128) State.reset =
    .next { State.reset with idx := 0xFFFFFFFFFFFFFFFFFFFFFFFFFFFFFFFF#128 } := rfl

/-- IV2: any text is loaded unchecked. -/
theorem test_ldtxt : exec (.ldtxt (textOfPort 0x74686973206973206E6F7420616E206964656E7469666965722C2033362062797465732E#288)) State.reset =
    .next { State.reset with txt := (textOfPort 0x74686973206973206E6F7420616E206964656E7469666965722C2033362062797465732E#288) } := rfl

/-- FW6. -/
theorem test_split : after cfgZ .split { State.reset with idx := 0x0123456789ABCDEF0123456789ABCDEF#128, l := 7, r := 9, rnd := 3 } =
    { State.reset with
      idx := 0x0123456789ABCDEF0123456789ABCDEF#128, l := 0x091A2B3C4D5E6F78#61, r := 0x0123456789ABCDEF#61 } := by
  decide +kernel

/-- FW9. -/
theorem test_split_out_of_range : after cfgZ .split { State.reset with idx := 0x4000000000000000000000000000000#128, l := 7, rnd := 2 } =
    { State.reset with idx := 0x4000000000000000000000000000000#128, l := 7, rnd := 2, err := 1, rsp := 1 } := by
  decide +kernel

/-- FW17: the fourth round. -/
theorem test_round : after cfgT .round { State.reset with l := 0x063E240A69254923#61, r := 0x1DE98D8021518C27#61, rnd := 3 } =
    { State.reset with l := 0x1DE98D8021518C27#61, r := 0x1A3B24903CC77E5C#61, rnd := 4 } := by decide +kernel

/-- FW18: a fifth round is refused. -/
theorem test_round_fifth : exec .round { State.reset with l := 1, rnd := 4 } =
    .next { State.reset with l := 1, rnd := 4, err := 3, rsp := 3 } := rfl

/-- IV15. -/
theorem test_unround : after cfgT .unround { State.reset with l := 0x1DE98D8021518C27#61, r := 0x1A3B24903CC77E5C#61, rnd := 4 } =
    { State.reset with l := 0x063E240A69254923#61, r := 0x1DE98D8021518C27#61, rnd := 3 } := by decide +kernel

/-- IV20: an unreachable round count is refused. -/
theorem test_unround_above_four : exec .unround { State.reset with l := 1, r := 2, rnd := 6 } =
    .next { State.reset with l := 1, r := 2, rnd := 6, err := 3, rsp := 3 } := rfl

/-- FW24. -/
theorem test_pack : (after cfgZ .pack { State.reset with l := 0x1DE98D8021518C27#61, r := 0x1A3B24903CC77E5C#61, rnd := 4 }).val =
    0xEF4C6C010A8C4613BA3B24903CC77E5C#128 := by decide +kernel

/-- FW23: the lowest bit of L lands at bit 61. -/
theorem test_pack_low_bit : (after cfgZ .pack { State.reset with l := 1 }).val = 0x0000000000004000A000000000000000#128 := by
  decide +kernel

/-- IV9. -/
theorem test_extract : after cfgZ .extract { State.reset with val := 0xEF4C6C010A8C4613BA3B24903CC77E5C#128 } =
    { State.reset with
      val := 0xEF4C6C010A8C4613BA3B24903CC77E5C#128, l := 0x1DE98D8021518C27#61, r := 0x1A3B24903CC77E5C#61, rnd := 4 } := by
  decide +kernel

/-- IV12: a wrong variant. -/
theorem test_extract_wrong_variant : after cfgZ .extract { State.reset with val := 0x0000000000004000C000000000000000#128 } =
    { State.reset with val := 0x0000000000004000C000000000000000#128, err := 2, rsp := 2 } := by decide +kernel

/-- FW26. -/
theorem test_fmt : (after cfgZ .fmt { State.reset with val := 0xEF4C6C010A8C4613BA3B24903CC77E5C#128 }).txt =
    (textOfPort 0x65663463366330312D306138632D343631332D626133622D323439303363633737653563#288) := by decide +kernel

/-- IV5: a wrong version parses. -/
theorem test_parse : (after cfgZ .parse { State.reset with txt := (textOfPort 0x30303030303030302D303030302D353030302D383030302D303030303030303030303030#288) }).val =
    0x00000000000050008000000000000000#128 := by decide +kernel

/-- IV7: a failed PARSE keeps VAL and the ERR already set. -/
theorem test_parse_bad : after cfgZ .parse { State.reset with txt := (textOfPort 0x30303030303030302D303030302D343030302D383030302D303030303030303030303067#288), val := 0x77, err := 1 } =
    { State.reset with txt := (textOfPort 0x30303030303030302D303030302D343030302D383030302D303030303030303030303067#288), val := 0x77, err := 1, rsp := 2 } := by decide +kernel

/-- IV24: JOIN ignores RND and clears the top six bits. -/
theorem test_join : after cfgZ .join { State.reset with l := 1, rnd := 3, idx := 0xFFFFFFFFFFFFFFFFFFFFFFFFFFFFFFFF#128 } =
    { State.reset with l := 1, rnd := 3, idx := 0x2000000000000000#128 } := by decide +kernel

/-- CT6. -/
theorem test_reservedE : exec .reservedE State.reset = .next { State.reset with err := 3, rsp := 3 } := rfl

/-- CT8: ERR keeps the first code. -/
theorem test_reservedF : exec .reservedF { State.reset with err := 1 } = .next { State.reset with err := 1, rsp := 3 } := rfl

/-- The very next step runs the word placed, here `.op 14`, and takes it off the list. -/
theorem test_withFetchWord_runs : step (State.reset.withFetchWord 8 14) = .next { State.reset with err := 3, rsp := 3 } := rfl

/-- The same with an operand above the opcode: LDIDX of 5. -/
theorem test_withFetchWord_operand : step (State.reset.withFetchWord 136 (4 + 16 * 5)) = .next { State.reset with idx := 5 } := rfl

/-! ## Witnesses: what meets the hypotheses of each obligation, each clause at its boundary values -/

/-- Indices on both sides of the domain's end (SPLIT, ENC, the bijection, the boundary and round trip statements). -/
theorem witness_index_domain_ends :
    (0#128).toNat < 2 ^ 122 ∧ (0x3FFFFFFFFFFFFFFFFFFFFFFFFFFFFFF#128).toNat < 2 ^ 122 ∧
      2 ^ 122 ≤ (0x4000000000000000000000000000000#128).toNat ∧ 2 ^ 122 ≤ (0xFFFFFFFFFFFFFFFFFFFFFFFFFFFFFFFF#128).toNat := by decide

/-- DecodeOfEncodeIsIdentity: a well-formed command with an operand. -/
theorem witness_wellFormed : (Instr.ldidx 0xFFFFFFFFFFFFFFFFFFFFFFFFFFFFFFFF#128).wellFormed = true := by decide

/-- EncodeOfDecodeIsIdentity: canonical words with and without a sampled port; one that is not. -/
theorem witness_canonical : PortWord.canonical ⟨0x1#4, 7, 0⟩ = true ∧ PortWord.canonical ⟨0x5#4, 0, 7⟩ = true ∧
    PortWord.canonical ⟨0x6#4, 0, 0⟩ = true ∧ PortWord.canonical ⟨0x6#4, 7, 0⟩ = false := by decide +kernel

/-- IgnoredPortsHaveNoEffect: other values on ports SPLIT ignores, and on the port LDIDX ignores. -/
theorem witness_ignored_ports :
    ((0x6#4 = 0x4#4 ∨ 0x6#4 = 0x1#4 → 1#128 = 2#128) ∧ (0x6#4 = 0x5#4 ∨ 0x6#4 = 0x2#4 → 3#288 = 4#288)) ∧
      ((0x4#4 = 0x4#4 ∨ 0x4#4 = 0x1#4 → 1#128 = 1#128) ∧ (0x4#4 = 0x5#4 ∨ 0x4#4 = 0x2#4 → 3#288 = 4#288)) :=
  ⟨⟨fun h => absurd h (by decide), fun h => absurd h (by decide)⟩, fun _ => rfl, fun h => absurd h (by decide)⟩

/-- AssembledCommandsDecodeToThemselves: the largest operands that fit and the first that do not. -/
theorem witness_fitting_operands : 2 ^ 128 - 1 < 2 ^ 128 ∧ 15 < 16 ∧
    ((AsmCommand.enc (2 ^ 128 - 1)).assemble.isSome = true ∧ (AsmCommand.enc (2 ^ 128)).assemble.isSome = false) ∧
    ((AsmCommand.dec (List.replicate 36 0x30)).assemble.isSome = true ∧
      (AsmCommand.dec (List.replicate 37 0x30)).assemble.isSome = false) ∧
    ((AsmCommand.dotOp 15).assemble.isSome = true ∧ (AsmCommand.dotOp 16).assemble.isSome = false) := by decide +kernel

/-- StepRunsTheDecodedCommand, RunTakesCommandsInOrder, IdleStepChangesNothing: a list with commands and one without. -/
theorem witness_program : (State.reset.issueFirst ⟨0x6#4, 0, 0⟩).program = ⟨0x6#4, 0, 0⟩ :: [] ∧
    (State.reset.issueFirst ⟨0x6#4, 0, 0⟩).program = [⟨0x6#4, 0, 0⟩] ++ [] ∧ State.reset.program = [] :=
  ⟨rfl, rfl, rfl⟩

/-- RunEndsWithTheProgram: a run of one command. -/
theorem witness_run : core.run 1 (State.reset.withFetchWord 8 14) = .next { State.reset with err := 3, rsp := 3 } := rfl

/-- RunWentWrongIffErrIsSet: a run that starts with ERR clear, whose one CLR comes before its one error, ends with ERR set. -/
theorem witness_run_goes_wrong : ∃ s t : State, s.err = 0 ∧
    (∀ (before later : List PortWord) (w : PortWord), s.program = before ++ w :: later → decode w = .clr →
      ¬ GoneWrong { s with program := before }) ∧ runAll s = .next t ∧ GoneWrong s ∧ t.err ≠ 0 := by
  refine ⟨{ State.reset with program := [⟨0x3#4, 0, 0⟩, ⟨0xE#4, 0, 0⟩] }, { State.reset with err := 3, rsp := 3 }, rfl, ?_, rfl,
    ⟨3, by decide +kernel, by decide⟩, by decide⟩
  intro before later w h hw
  match before, h with
  | [], _ => rintro ⟨st, h, _⟩; cases h
  | [_], h =>
    simp only [List.cons_append, List.nil_append, List.cons.injEq] at h
    obtain ⟨_, rfl, _⟩ := h
    exact absurd hw (by decide)
  | _ :: _ :: _, h => simp at h

/-- EveryStepKeepsRoundCountLegal, RoundsKeepTheirBlock: legal states at both ends, the second of which steps; and one that is not. -/
theorem witness_rnd_legal : RndLegal State.reset ∧ RndLegal { State.reset with rnd := 4 } ∧
    step ({ State.reset with rnd := 4 }.withFetchWord 8 0) = .next { State.reset with rnd := 4 } ∧
    ¬ RndLegal { State.reset with rnd := 5 } := ⟨by decide, by decide, rfl, by decide⟩

/-- ROUND and UNROUND's cases: the round counts where they meet (RoundAppliesOneRound, UnroundUndoesOneRound,
RoundAndUnroundRestoreTheBlock, AllButRoundsAreIdempotent). -/
theorem witness_round_counts : ((0#3).toNat < 4 ∧ (3#3).toNat < 4 ∧ 4 ≤ (4#3).toNat ∧ 4 ≤ (7#3).toNat) ∧
    ((0#3).toNat = 0 ∧ 1 ≤ (1#3).toNat ∧ (1#3).toNat ≤ 4 ∧ (4#3).toNat ≤ 4 ∧ 4 < (5#3).toNat) := by decide

/-- AllButRoundsAreIdempotent: a command that is neither. -/
theorem witness_not_a_round : Instr.split ≠ .round ∧ Instr.split ≠ .unround := by decide

/-- MulmaskNeedsOnlyLowBits and RotationStaysWithin61Bits: both ends of the amounts. -/
theorem witness_amounts : (61 ≤ 61 ∧ 61 ≤ 64) ∧ (1 ≤ 1 ∧ 1 ≤ 60) ∧ (1 ≤ 60 ∧ 60 ≤ 60) ∧ 60 < 61 := by decide

/-- RoundFunctionIsBijective's one zero, under CFG_T (vectors E3t, F of the masked constant). -/
theorem witness_F_zero : F cfgT 0x1FFFFFFFFFFFFFFF#61 0 = 0 ∧ F cfgT 0 0 ≠ 0 := by decide +kernel

/-- PackAndExtractAreInverse, ExtractChecksAndTakesTheHalves: values with right markers and with either wrong. -/
theorem witness_markers : markersOk 0x00000000000040008000000000000000#128 = true ∧
    markersOk 0xFFFFFFFFFFFF4FFFBFFFFFFFFFFFFFFF#128 = true ∧
    markersOk 0x00000000000050008000000000000000#128 = false ∧ markersOk 0x0000000000004000C000000000000000#128 = false := by decide

/-- FormatAndParseAreInverse: a text that spells a value. -/
theorem witness_parse_some : parseText (textOfPort 0x65663463366330312D306138632D343631332D626133622D323439303363633737653563#288) = some 0xEF4C6C010A8C4613BA3B24903CC77E5C#128 := by
  decide +kernel

/-- ParseReadsTheValue: a text of each kind, the second wrong in its last character only. -/
theorem witness_hexWithHyphens : HexWithHyphens (textOfPort 0x65663463366330312D306138632D343631332D626133622D323439303363633737653563#288) ∧
    ¬ HexWithHyphens (textOfPort 0x65663463366330312D306138632D343631332D626133622D323439303363633737653543#288) := by decide +kernel

/-- EncIsABijectionOntoIdentifiers, DecAcceptsExactlyIdentifiers, StatusHasExactlyItsCauses: an identifier and two texts that are
none (version 5; variant 01). -/
theorem witness_isIdentifier : IsIdentifier (textOfPort 0x66666666666666662D666666662D346666662D626666662D666666666666666666666666#288) ∧
    ¬ IsIdentifier (textOfPort 0x30303030303030302D303030302D353030302D383030302D303030303030303030303030#288) ∧ ¬ IsIdentifier (textOfPort 0x30303030303030302D303030302D343030302D373030302D303030303030303030303030#288) :=
  ⟨⟨by decide +kernel, by decide +kernel, by decide +kernel⟩, fun h => absurd h.2.1 (by decide +kernel),
    fun h => absurd h.2.2 (by decide +kernel)⟩

/-- EncIsABijectionOntoIdentifiers: two indices with one string are the same index; this pair is not. -/
theorem witness_enc_injective : (after cfgT (.enc 0) State.reset).txt = (after cfgT (.enc 0) State.reset).txt ∧
    (after cfgT (.enc 0) State.reset).txt ≠ (after cfgT (.enc 1) State.reset).txt := by decide +kernel

/-- DecMapsIdentifierToIndex: its three cases. -/
theorem witness_dec_cases : parseText (textOfPort 0x30303030303030302D303030302D343030302D383030302D303030303030303030303047#288) = none ∧
    (parseText (textOfPort 0x30303030303030302D303030302D353030302D383030302D303030303030303030303030#288) = some 0x00000000000050008000000000000000#128 ∧
      markersOk 0x00000000000050008000000000000000#128 = false) ∧
    (parseText (textOfPort 0x30303030303030302D303030302D343030302D383030302D303030303030303030303030#288) = some 0x00000000000040008000000000000000#128 ∧
      markersOk 0x00000000000040008000000000000000#128 = true) := by decide +kernel

/-- MacroRoundTrip: DEC of an identifier answers OK under this engine's own table too, whatever it is. -/
theorem witness_dec_own_table : ∃ t, exec (.dec (textOfPort 0x65663463366330312D306138632D343631332D626133622D323439303363633737653563#288)) State.reset = .next t ∧ t.rsp = 0 :=
  ⟨_, rfl, by decide +kernel⟩

/-- The same under CFG_T, with the index (D3). -/
theorem witness_dec_ok : (after cfgT (.dec (textOfPort 0x65663463366330312D306138632D343631332D626133622D323439303363633737653563#288)) State.reset).rsp = 0 ∧
    (after cfgT (.dec (textOfPort 0x65663463366330312D306138632D343631332D626133622D323439303363633737653563#288)) State.reset).idx = 1 := by decide +kernel

/-- RaisingWritesNoFurtherRegister, StatusHasExactlyItsCauses: a command of each status. -/
theorem witness_statuses : (after cfgT .nop State.reset).rsp = 0 ∧
    (after cfgT (.enc 0x4000000000000000000000000000000#128) State.reset).rsp = 1 ∧
    (after cfgT .parse State.reset).rsp = 2 ∧ (after cfgT .reservedF State.reset).rsp = 3 := by decide +kernel

/-- CommandsWriteOnlyTheirRegisters: writes that do change a register of each kind. -/
theorem witness_registers_change : (after cfgT (.ldidx 1) State.reset).idx ≠ State.reset.idx ∧
    (after cfgT .round State.reset).r ≠ State.reset.r ∧ (after cfgT .pack State.reset).val ≠ State.reset.val ∧
    (after cfgT .fmt State.reset).txt ≠ State.reset.txt ∧ (after cfgT .reservedE State.reset).err ≠ State.reset.err := by
  decide +kernel

/-- ErrIsStickyAndNeverRead, ClrReachesTheResetState: ERR clear and set before an error, and CLR. -/
theorem witness_err : (after cfgT .parse State.reset).err = 2 ∧ (after cfgT .parse { State.reset with err := 1 }).err = 1 ∧
    (after cfgT .clr { State.reset with err := 1 }).err = 0 ∧ Instr.parse ≠ .clr := by decide +kernel

/-- OnlyFirstFourConstantsMatter: CFG_T with entries 4 to 7 and bit 63 of entry 0 changed (program P6's remark). -/
def cfgT' : RoundConstants :=
  #v[0x7FFFFFFFFFFFFFFF, 0x0123456789ABCDEF, 0xFEDCBA9876543210, 0x8000000000000001, 1, 2, 3, 4]

theorem witness_tables_agree : cfgT ≠ cfgT' ∧
    ∀ r : BitVec 3, r.toNat < 4 → (cfgT[r.toNat]).setWidth 61 = (cfgT'[r.toNat]).setWidth 61 := by decide +kernel

end Sys2Proof.Tests
end

section
/-!
SUPPORT. What each command may write (rule R25, marked derived), as one table and one frame lemma over it.
-/
namespace Sys2Proof.Machine

/-- The registers as rule R25 groups them: `L`, `R` and `RND` are always written together. -/
inductive Register where
  | idx
  | block
  | val
  | txt
  | err

/-- The column "writes on success" of rule R25. -/
def writeSet : Instr → List Register
  | .nop | .reservedE | .reservedF => []
  | .clr => [.idx, .block, .val, .txt, .err]
  | .enc _ | .dec _ => [.idx, .block, .val, .txt]
  | .ldidx _ | .join => [.idx]
  | .ldtxt _ | .fmt => [.txt]
  | .split | .round | .unround | .extract => [.block]
  | .pack | .parse => [.val]

/-- `t` differs from `s` at most in the registers of `ws` and in the response. -/
structure SameOutside (ws : List Register) (s t : State) : Prop where
  idx : .idx ∉ ws → t.idx = s.idx
  l : .block ∉ ws → t.l = s.l
  r : .block ∉ ws → t.r = s.r
  rnd : .block ∉ ws → t.rnd = s.rnd
  val : .val ∉ ws → t.val = s.val
  txt : .txt ∉ ws → t.txt = s.txt
  err : .err ∉ ws → t.err = s.err
  program : t.program = s.program

namespace SameOutside

variable {ws : List Register}

theorem refl (s : State) : SameOutside ws s s := by constructor <;> intros <;> rfl

theorem trans {s t u : State} (h : SameOutside ws s t) (k : SameOutside ws t u) : SameOutside ws s u where
  idx hw := (k.idx hw).trans (h.idx hw)
  l hw := (k.l hw).trans (h.l hw)
  r hw := (k.r hw).trans (h.r hw)
  rnd hw := (k.rnd hw).trans (h.rnd hw)
  val hw := (k.val hw).trans (h.val hw)
  txt hw := (k.txt hw).trans (h.txt hw)
  err hw := (k.err hw).trans (h.err hw)
  program := k.program.trans h.program

/-! The register writes of Machine/Ops.lean. -/

theorem withIdx (h : .idx ∈ ws) (s : State) (x : Index) : SameOutside ws s (s.withIdx x) := by
  constructor <;> simp [h]

theorem withBlock (h : .block ∈ ws) (s : State) (lr : Half × Half) (n : BitVec 3) :
    SameOutside ws s (s.withBlock lr n) := by
  constructor <;> simp [h]

theorem withVal (h : .val ∈ ws) (s : State) (v : Value) : SameOutside ws s (s.withVal v) := by
  constructor <;> simp [h]

theorem withTxt (h : .txt ∈ ws) (s : State) (t : Text) : SameOutside ws s (s.withTxt t) := by
  constructor <;> simp [h]

theorem cleared (s : State) : SameOutside (writeSet .clr) s s.cleared := by
  constructor <;> simp [writeSet]

/-! The micro-commands that can raise. -/

theorem microSplit (h : .block ∈ ws) (s : State) : SameOutside ws s (microSplit s).1 := by
  cases hd : inDomain s.idx with
  | true => rw [microSplit_of_lt hd]; exact withBlock h s _ _
  | false => rw [microSplit_of_ge hd]; exact refl s

theorem microRound (h : .block ∈ ws) (rc : RoundConstants) (s : State) : SameOutside ws s (microRound rc s).1 := by
  rcases Nat.lt_or_ge s.rnd.toNat 4 with hr | hr
  · rw [microRound_of_lt hr]; exact withBlock h s _ _
  · rw [microRound_of_ge hr]; exact refl s

theorem microUnround (h : .block ∈ ws) (rc : RoundConstants) (s : State) :
    SameOutside ws s (microUnround rc s).1 := by
  by_cases hr : s.rnd = 0 ∨ 4 < s.rnd.toNat
  · rw [microUnround_of_illegal hr]; exact refl s
  · rw [not_or, not_lt] at hr
    rw [microUnround_of_legal hr.1 hr.2]; exact withBlock h s _ _

theorem microParse (h : .val ∈ ws) (s : State) : SameOutside ws s (microParse s).1 := by
  cases hp : parseText s.txt with
  | none => rw [microParse_of_none hp]; exact refl s
  | some v => rw [microParse_of_some hp]; exact withVal h s v

theorem microExtract (h : .block ∈ ws) (s : State) : SameOutside ws s (microExtract s).1 := by
  cases hm : markersOk s.val with
  | true => rw [microExtract_of_ok hm]; exact withBlock h s _ _
  | false => rw [microExtract_of_bad hm]; exact refl s

end SameOutside

/-! ## ENC and DEC, by their stages -/

section StageRelations

variable {P : State → State → Prop} (refl : ∀ s, P s s) (trans : ∀ a b c, P a b → P b c → P a c)

include refl trans

/-- What composes and holds across each stage of ENC holds across ENC (rules R120, R122). -/
theorem microEnc_rel {rc : RoundConstants} {x : Index} (hldidx : ∀ s, P s (microLdidx x s).1)
    (hsplit : ∀ s, P s (microSplit s).1) (hround : ∀ s, P s (microRound rc s).1) (hpack : ∀ s, P s (microPack s).1)
    (hfmt : ∀ s, P s (microFmt s).1) (s : State) : P s (microEnc rc x s).1 := by
  refine runSeq_rel refl trans (encStages rc x) ?_ s
  simp only [encStages, List.forall_mem_cons]
  exact ⟨hldidx, hsplit, hround, hround, hround, hround, hpack, hfmt, List.forall_mem_nil _⟩

/-- What composes and holds across each stage of DEC holds across DEC (rules R121, R122). -/
theorem microDec_rel {rc : RoundConstants} {u : Text} (hldtxt : ∀ s, P s (microLdtxt u s).1)
    (hparse : ∀ s, P s (microParse s).1) (hextract : ∀ s, P s (microExtract s).1)
    (hunround : ∀ s, P s (microUnround rc s).1) (hjoin : ∀ s, P s (microJoin s).1) (s : State) :
    P s (microDec rc u s).1 := by
  refine runSeq_rel refl trans (decStages rc u) ?_ s
  simp only [decStages, List.forall_mem_cons]
  exact ⟨hldtxt, hparse, hextract, hunround, hunround, hunround, hunround, hjoin, List.forall_mem_nil _⟩

end StageRelations

/-! ## The frame of every command -/

theorem microEnc_sameOutside (rc : RoundConstants) (x : Index) (s : State) :
    SameOutside (writeSet (.enc x)) s (microEnc rc x s).1 :=
  microEnc_rel (P := SameOutside (writeSet (.enc x))) .refl (fun _ _ _ => .trans)
    (fun t => .withIdx (by simp [writeSet]) t x) (.microSplit (by simp [writeSet]))
    (.microRound (by simp [writeSet]) rc) (fun t => .withVal (by simp [writeSet]) t _)
    (fun t => .withTxt (by simp [writeSet]) t _) s

theorem microDec_sameOutside (rc : RoundConstants) (u : Text) (s : State) :
    SameOutside (writeSet (.dec u)) s (microDec rc u s).1 :=
  microDec_rel (P := SameOutside (writeSet (.dec u))) .refl (fun _ _ _ => .trans)
    (fun t => .withTxt (by simp [writeSet]) t u) (.microParse (by simp [writeSet]))
    (.microExtract (by simp [writeSet])) (.microUnround (by simp [writeSet]) rc)
    (fun t => .withIdx (by simp [writeSet]) t _) s

/-- A command writes at most the registers rule R25 lists for it, before the response and `ERR` are updated. -/
theorem engine_sameOutside (rc : RoundConstants) (i : Instr) (s : State) :
    SameOutside (writeSet i) s (engine rc i s).1 := by
  cases i with
  | nop | reservedE | reservedF => exact .refl s
  | clr => exact .cleared s
  | enc x => exact microEnc_sameOutside rc x s
  | dec u => exact microDec_sameOutside rc u s
  | ldidx x => exact .withIdx (by simp [writeSet]) s x
  | ldtxt u => exact .withTxt (by simp [writeSet]) s u
  | split => exact .microSplit (by simp [writeSet]) s
  | round => exact .microRound (by simp [writeSet]) rc s
  | unround => exact .microUnround (by simp [writeSet]) rc s
  | pack => exact .withVal (by simp [writeSet]) s _
  | extract => exact .microExtract (by simp [writeSet]) s
  | fmt => exact .withTxt (by simp [writeSet]) s _
  | parse => exact .microParse (by simp [writeSet]) s
  | join => exact .withIdx (by simp [writeSet]) s _

/-! ## The end of a command -/

@[simp] theorem after_idx (rc : RoundConstants) (i : Instr) (s : State) :
    (after rc i s).idx = (engine rc i s).1.idx := rfl
@[simp] theorem after_l (rc : RoundConstants) (i : Instr) (s : State) : (after rc i s).l = (engine rc i s).1.l := rfl
@[simp] theorem after_r (rc : RoundConstants) (i : Instr) (s : State) : (after rc i s).r = (engine rc i s).1.r := rfl
@[simp] theorem after_rnd (rc : RoundConstants) (i : Instr) (s : State) :
    (after rc i s).rnd = (engine rc i s).1.rnd := rfl
@[simp] theorem after_val (rc : RoundConstants) (i : Instr) (s : State) :
    (after rc i s).val = (engine rc i s).1.val := rfl
@[simp] theorem after_txt (rc : RoundConstants) (i : Instr) (s : State) :
    (after rc i s).txt = (engine rc i s).1.txt := rfl
@[simp] theorem after_err (rc : RoundConstants) (i : Instr) (s : State) :
    (after rc i s).err = stickyErr (engine rc i s).1.err (engine rc i s).2 := rfl
@[simp] theorem after_rsp (rc : RoundConstants) (i : Instr) (s : State) :
    (after rc i s).rsp = (engine rc i s).2.code := rfl
@[simp] theorem after_program (rc : RoundConstants) (i : Instr) (s : State) : (after rc i s).program = s.program :=
  (engine_sameOutside rc i s).program

/-- Only CLR writes `ERR` as a register; every other command leaves it to the sticky rule (rule R155). -/
theorem after_err_of_ne_clr {i : Instr} (h : i ≠ .clr) (rc : RoundConstants) (s : State) :
    (after rc i s).err = stickyErr s.err (engine rc i s).2 := by
  have hw : Register.err ∉ writeSet i := by cases i <;> simp [writeSet] at h ⊢
  rw [after_err, (engine_sameOutside rc i s).err hw]

/-- The sticky rule changes `ERR` only from 0, to a status that is not 0 (rule R155). -/
theorem stickyErr_ne_self {e : BitVec 2} {st : Status} (h : stickyErr e st ≠ e) :
    e = 0 ∧ st.code ≠ 0 ∧ stickyErr e st = st.code := by
  have hst : st ≠ .ok := by rintro rfl; exact h (stickyErr_ok e)
  rw [stickyErr_of_ne_ok e hst] at h ⊢
  split at h
  next he => exact ⟨he, mt Status.code_eq_zero.mp hst, if_pos he⟩
  next => exact absurd rfl h

/-! ## Rule R25's table by register -/

theorem idx_mem_writeSet {i : Instr} : .idx ∈ writeSet i ↔
    i = .clr ∨ i = .join ∨ (∃ x, i = .enc x ∨ i = .ldidx x) ∨ ∃ u, i = .dec u := by
  cases i <;> simp [writeSet]

theorem block_mem_writeSet {i : Instr} : .block ∈ writeSet i ↔
    i = .clr ∨ i = .split ∨ i = .round ∨ i = .unround ∨ i = .extract ∨ (∃ x, i = .enc x) ∨ ∃ u, i = .dec u := by
  cases i <;> simp [writeSet]

theorem val_mem_writeSet {i : Instr} : .val ∈ writeSet i ↔
    i = .clr ∨ i = .pack ∨ i = .parse ∨ (∃ x, i = .enc x) ∨ ∃ u, i = .dec u := by
  cases i <;> simp [writeSet]

theorem txt_mem_writeSet {i : Instr} : .txt ∈ writeSet i ↔
    i = .clr ∨ i = .fmt ∨ (∃ x, i = .enc x) ∨ ∃ u, i = .dec u ∨ i = .ldtxt u := by
  cases i <;> simp [writeSet]

/-- Settles O53: what changed lies in the write set, and `ERR` beside it changes by the sticky rule. -/
theorem commandsWriteOnlyTheirRegisters : Obligations.CommandsWriteOnlyTheirRegisters := by
  intro i s
  have hf := engine_sameOutside Config.roundConstants i s
  refine ⟨_, exec_eq_after i s, after_program _ i s, fun h => ?_, fun h => ?_, fun h => ?_, fun h => ?_, fun h => ?_⟩
  · exact idx_mem_writeSet.mp (by_contra fun hw => h (hf.idx hw))
  · refine block_mem_writeSet.mp (by_contra fun hw => ?_)
    rcases h with h | h | h
    · exact h (hf.l hw)
    · exact h (hf.r hw)
    · exact h (hf.rnd hw)
  · exact val_mem_writeSet.mp (by_contra fun hw => h (hf.val hw))
  · exact txt_mem_writeSet.mp (by_contra fun hw => h (hf.txt hw))
  · refine or_iff_not_imp_left.mpr fun hclr => ?_
    rw [after_err_of_ne_clr hclr] at h ⊢
    exact stickyErr_ne_self h

end Sys2Proof.Machine
end

section
/-!
SUPPORT. The invariant `0 <= RND <= 4` (rule R19, marked derived): every stage that writes the round count writes a legal
one, and every other command keeps it.
-/
namespace Sys2Proof.Machine

theorem microSplit_rndLegal (s : State) (h : RndLegal s) : RndLegal (microSplit s).1 := by
  cases hd : inDomain s.idx with
  | true => rw [microSplit_of_lt hd]; exact Nat.zero_le 4
  | false => rw [microSplit_of_ge hd]; exact h

theorem microRound_rndLegal (rc : RoundConstants) (s : State) (h : RndLegal s) : RndLegal (microRound rc s).1 := by
  rcases Nat.lt_or_ge s.rnd.toNat 4 with hr | hr
  · simp only [microRound_of_lt hr, RndLegal, done_fst, State.withBlock_rnd]
    bv_omega
  · rw [microRound_of_ge hr]; exact h

theorem microUnround_rndLegal (rc : RoundConstants) (s : State) (h : RndLegal s) : RndLegal (microUnround rc s).1 := by
  by_cases h0 : s.rnd = 0
  · rw [microUnround_of_illegal (.inl h0)]; exact h
  · simp only [microUnround_of_legal h0 h, RndLegal, done_fst, State.withBlock_rnd] at h ⊢
    bv_omega

theorem microExtract_rndLegal (s : State) (h : RndLegal s) : RndLegal (microExtract s).1 := by
  cases hm : markersOk s.val with
  | true => rw [microExtract_of_ok hm]; exact Nat.le_refl 4
  | false => rw [microExtract_of_bad hm]; exact h

/-- A command that does not write the block keeps a legal round count. -/
theorem SameOutside.rndLegal {ws : List Register} {s t : State} (hf : SameOutside ws s t) (hw : .block ∉ ws)
    (h : RndLegal s) : RndLegal t := by
  rw [RndLegal, hf.rnd hw]; exact h

theorem microEnc_rndLegal (rc : RoundConstants) (x : Index) (s : State) (h : RndLegal s) :
    RndLegal (microEnc rc x s).1 :=
  microEnc_rel (P := fun s t => RndLegal s → RndLegal t) (fun _ => id) (fun _ _ _ hab hbc => hbc ∘ hab)
    (fun _ => id) microSplit_rndLegal (microRound_rndLegal rc)
    (fun s => (SameOutside.withVal (ws := [.val]) (by simp) s _).rndLegal (by simp))
    (fun s => (SameOutside.withTxt (ws := [.txt]) (by simp) s _).rndLegal (by simp)) s h

theorem microDec_rndLegal (rc : RoundConstants) (u : Text) (s : State) (h : RndLegal s) :
    RndLegal (microDec rc u s).1 :=
  microDec_rel (P := fun s t => RndLegal s → RndLegal t) (fun _ => id) (fun _ _ _ hab hbc => hbc ∘ hab)
    (fun _ => id) (fun s => (SameOutside.microParse (ws := [.val]) (by simp) s).rndLegal (by simp))
    microExtract_rndLegal (microUnround_rndLegal rc) (fun _ => id) s h

theorem engine_rndLegal (rc : RoundConstants) (i : Instr) (s : State) (h : RndLegal s) :
    RndLegal (engine rc i s).1 := by
  by_cases hw : .block ∈ writeSet i
  · obtain rfl | rfl | rfl | rfl | rfl | ⟨x, rfl⟩ | ⟨u, rfl⟩ := block_mem_writeSet.mp hw
    · exact Nat.zero_le 4
    · exact microSplit_rndLegal s h
    · exact microRound_rndLegal rc s h
    · exact microUnround_rndLegal rc s h
    · exact microExtract_rndLegal s h
    · exact microEnc_rndLegal rc x s h
    · exact microDec_rndLegal rc u s h
  · exact (engine_sameOutside rc i s).rndLegal hw h

/-- Settles O13: an idle step changes nothing, and a command's stages keep the round count legal. -/
theorem everyStepKeepsRoundCountLegal : Obligations.EveryStepKeepsRoundCountLegal := by
  intro s t h hstep
  cases hp : s.program with
  | nil =>
    rw [step_of_idle hp] at hstep
    cases hstep
    exact h
  | cons w rest =>
    rw [step_of_command hp] at hstep
    cases hstep
    exact engine_rndLegal _ (decode w) { s with program := rest } h

/-- Settles O14: the round count is 0 at reset (rule R26). -/
theorem resetRoundCountIsLegal : Obligations.ResetRoundCountIsLegal := Nat.zero_le 4

end Sys2Proof.Machine
end

section
/-!
SUPPORT. Which bits of the round-constant table can be seen: the rounds index it by a round count below 4 and mask each
entry to 61 bits (93 U1), so tables that agree there run the same stages.
-/
namespace Sys2Proof.Machine

theorem F_congr {rc rc' : RoundConstants} {r : BitVec 3} (h : (rc[r.toNat]).setWidth 61 = (rc'[r.toNat]).setWidth 61)
    (block : Half) : F rc block r = F rc' block r := by
  rw [F_eq, F_eq, h]

section Agree

variable {rc rc' : RoundConstants}
  (h : ∀ r : BitVec 3, r.toNat < 4 → (rc[r.toNat]).setWidth 61 = (rc'[r.toNat]).setWidth 61)

include h

theorem microRound_congr : microRound rc = microRound rc' := by
  funext s
  rcases Nat.lt_or_ge s.rnd.toNat 4 with hr | hr
  · simp only [microRound_of_lt hr, feistelRound, F_congr (h s.rnd hr)]
  · rw [microRound_of_ge hr, microRound_of_ge hr]

theorem microUnround_congr : microUnround rc = microUnround rc' := by
  funext s
  by_cases hr : s.rnd = 0 ∨ 4 < s.rnd.toNat
  · rw [microUnround_of_illegal hr, microUnround_of_illegal hr]
  · rw [not_or, not_lt] at hr
    obtain ⟨h0, h4⟩ := hr
    have hlt : (s.rnd - 1).toNat < 4 := by bv_omega
    simp only [microUnround_of_legal h0 h4, feistelUnround, F_congr (h _ hlt)]

theorem engine_congr (i : Instr) : engine rc i = engine rc' i := by
  cases i with
  | enc x => simp only [engine, microEnc, encStages, microRound_congr h]
  | dec u => simp only [engine, microDec, decStages, microUnround_congr h]
  | round => exact microRound_congr h
  | unround => exact microUnround_congr h
  | _ => rfl

end Agree

/-- Settles O55: the two tables run the same stages, so they leave the same state. -/
theorem onlyFirstFourConstantsMatter : Obligations.OnlyFirstFourConstantsMatter := by
  intro rc rc' h i s
  rw [after, after, engine_congr h]

end Sys2Proof.Machine
end

section
/-!
SUPPORT. ENC and DEC in closed form: what each writes and answers, one equation per case of rules R120 and R121.
-/
namespace Sys2Proof.Machine

theorem runSeq_cons_done {m : Micro} {ms : List Micro} {s t : State} (h : m s = done t) :
    runSeq (m :: ms) s = runSeq ms t := by
  rw [runSeq_cons_ok (by rw [h, done_snd]), h, done_fst]

/-- A stage that raises ends the sequence with its status and no further write (rules R122, R154). -/
theorem runSeq_cons_of_raise {m : Micro} {ms : List Micro} {s : State} {x : Status} (hx : x ≠ .ok)
    (h : m s = raise x s) : runSeq (m :: ms) s = raise x s := by
  rw [runSeq_cons_raise (by rwa [h, raise_snd]), h]

@[simp] theorem State.withBlock_withBlock (s : State) (lr lr' : Half × Half) (n n' : BitVec 3) :
    (s.withBlock lr n).withBlock lr' n' = s.withBlock lr' n' := rfl

/-- Four ROUND stages from round count 0 permute the block (rules R76, R102). -/
theorem runSeq_four_rounds {rc : RoundConstants} {ms : List Micro} {s : State} (h : s.rnd = 0) :
    runSeq (microRound rc :: microRound rc :: microRound rc :: microRound rc :: ms) s =
      runSeq ms (s.withBlock (permute rc (s.l, s.r)) 4) := by
  iterate 4 rw [runSeq_cons_done (microRound_of_lt (by simp [h]))]
  simp [h, permute]

/-- Four UNROUND stages from round count 4 unpermute the block (rules R76, R113). -/
theorem runSeq_four_unrounds {rc : RoundConstants} {ms : List Micro} {s : State} (h : s.rnd = 4) :
    runSeq (microUnround rc :: microUnround rc :: microUnround rc :: microUnround rc :: ms) s =
      runSeq ms (s.withBlock (unpermute rc (s.l, s.r)) 0) := by
  iterate 4 rw [runSeq_cons_done (microUnround_of_legal (by simp [h]) (by simp [h]))]
  simp [h, unpermute]

/-- ENC of a legal index (rule R120). -/
theorem microEnc_of_lt {rc : RoundConstants} {x : Index} (h : inDomain x = true) (s : State) :
    microEnc rc x s = done ((((s.withIdx x).withBlock (permute rc (splitIndex x)) 4).withVal
      (packHalves (permute rc (splitIndex x)))).withTxt (fmtValue (packHalves (permute rc (splitIndex x))))) := by
  rw [microEnc, encStages, runSeq_cons_done (microLdidx_eq x s),
    runSeq_cons_done (microSplit_of_lt (s := s.withIdx x) h), runSeq_four_rounds rfl,
    runSeq_cons_done (microPack_eq _), runSeq_cons_done (microFmt_eq _), runSeq_nil]
  simp only [State.withBlock_withBlock, State.withBlock_l, State.withBlock_r, State.withIdx_idx, State.withVal_val]

/-- ENC of an index outside the domain: only the index is written (rule R120). -/
theorem microEnc_of_ge {rc : RoundConstants} {x : Index} (h : inDomain x = false) (s : State) :
    microEnc rc x s = raise .outOfRange (s.withIdx x) := by
  rw [microEnc, encStages, runSeq_cons_done (microLdidx_eq x s),
    runSeq_cons_of_raise (by decide) (microSplit_of_ge (s := s.withIdx x) h)]

/-- DEC of a text that does not parse: only the text is written (rule R121). -/
theorem microDec_of_none {rc : RoundConstants} {u : Text} (h : parseText u = none) (s : State) :
    microDec rc u s = raise .invalidFormat (s.withTxt u) := by
  rw [microDec, decStages, runSeq_cons_done (microLdtxt_eq u s),
    runSeq_cons_of_raise (by decide) (microParse_of_none (s := s.withTxt u) h)]

/-- DEC of a text whose value has a wrong marker: the text and the value are written (rule R121). -/
theorem microDec_of_bad {rc : RoundConstants} {u : Text} {v : Value} (h : parseText u = some v)
    (hm : markersOk v = false) (s : State) :
    microDec rc u s = raise .invalidFormat ((s.withTxt u).withVal v) := by
  rw [microDec, decStages, runSeq_cons_done (microLdtxt_eq u s),
    runSeq_cons_done (microParse_of_some (s := s.withTxt u) h),
    runSeq_cons_of_raise (by decide) (microExtract_of_bad (s := (s.withTxt u).withVal v) hm)]

/-- DEC of an identifier (rule R121). -/
theorem microDec_of_ok {rc : RoundConstants} {u : Text} {v : Value} (h : parseText u = some v)
    (hm : markersOk v = true) (s : State) :
    microDec rc u s = done ((((s.withTxt u).withVal v).withBlock (unpermute rc (extractHalves v)) 0).withIdx
      (joinHalves (unpermute rc (extractHalves v)))) := by
  rw [microDec, decStages, runSeq_cons_done (microLdtxt_eq u s),
    runSeq_cons_done (microParse_of_some (s := s.withTxt u) h),
    runSeq_cons_done (microExtract_of_ok (s := (s.withTxt u).withVal v) hm), runSeq_four_unrounds rfl,
    runSeq_cons_done (microJoin_eq _), runSeq_nil]
  simp only [State.withBlock_withBlock, State.withBlock_l, State.withBlock_r, State.withVal_val]

end Sys2Proof.Machine
end

section
/-!
SUPPORT. Issuing a command twice (rule R39, marked derived): a command whose inputs are not among its outputs writes
again what already stands there, and answers the same status.
-/
namespace Sys2Proof.Machine

/-! ## Writing what already stands there -/

theorem State.withIdx_of_eq {s : State} {x : Index} (h : s.idx = x) : s.withIdx x = s := by
  rw [← h]; rfl

theorem State.withBlock_of_eq {s : State} {lr : Half × Half} {n : BitVec 3} (hl : s.l = lr.1) (hr : s.r = lr.2)
    (hn : s.rnd = n) : s.withBlock lr n = s := by
  rw [State.withBlock, ← hl, ← hr, ← hn]

theorem State.withVal_of_eq {s : State} {v : Value} (h : s.val = v) : s.withVal v = s := by
  rw [← h]; rfl

theorem State.withTxt_of_eq {s : State} {u : Text} (h : s.txt = u) : s.withTxt u = s := by
  rw [← h]; rfl

theorem stickyErr_stickyErr (e : BitVec 2) (st : Status) : stickyErr (stickyErr e st) st = stickyErr e st := by
  by_contra h
  obtain ⟨h0, hcode, -⟩ := stickyErr_ne_self h
  rw [stickyErr_of_ne_ok e (mt Status.code_eq_zero.mpr hcode)] at h0
  split at h0
  next => exact hcode h0
  next he => exact he h0

theorem State.complete_complete (s : State) (st : Status) : (s.complete st).complete st = s.complete st := by
  simp only [State.complete, stickyErr_stickyErr]

theorem State.cleared_complete_ok (s : State) : (s.cleared.complete .ok).cleared = s.cleared.complete .ok := by
  rw [State.complete_ok]; rfl

/-! ## Repeatable commands -/

/-- From the state the command leaves, `ERR` and the response updated, it writes nothing new and answers the status it
answered before. -/
def Repeatable (m : Micro) (s : State) : Prop :=
  m ((m s).1.complete (m s).2) = ((m s).1.complete (m s).2, (m s).2)

theorem after_after_of_repeatable {rc : RoundConstants} {i : Instr} {s : State} (h : Repeatable (engine rc i) s) :
    after rc i (after rc i s) = after rc i s := by
  rw [after, after, h, State.complete_complete]

variable {m : Micro} {s t : State}

theorem repeatable_of_done (h : m s = done t) (h' : m (t.complete .ok) = done (t.complete .ok)) : Repeatable m s := by
  rw [Repeatable, h, done_fst, done_snd, h', done]

theorem repeatable_of_raise {x : Status} (h : m s = raise x t) (h' : m (t.complete x) = raise x (t.complete x)) :
    Repeatable m s := by
  rw [Repeatable, h, raise_fst, raise_snd, h', raise]

/-- A command that is one write, its source not among what it writes. -/
theorem repeatable_of_write {w : State → State} (h : ∀ s, m s = done (w s))
    (hw : w ((w s).complete .ok) = (w s).complete .ok) : Repeatable m s :=
  repeatable_of_done (h s) (by rw [h, hw])

theorem microSplit_repeatable (s : State) : Repeatable microSplit s := by
  cases hd : inDomain s.idx with
  | true =>
    refine repeatable_of_done (microSplit_of_lt hd) ?_
    rw [microSplit_of_lt (by simpa using hd), State.withBlock_of_eq] <;> simp
  | false => exact repeatable_of_raise (microSplit_of_ge hd) (microSplit_of_ge (by simpa using hd))

theorem microParse_repeatable (s : State) : Repeatable microParse s := by
  cases hp : parseText s.txt with
  | none => exact repeatable_of_raise (microParse_of_none hp) (microParse_of_none (by simpa using hp))
  | some v =>
    refine repeatable_of_done (microParse_of_some hp) ?_
    rw [microParse_of_some (by simpa using hp), State.withVal_of_eq]
    simp

theorem microExtract_repeatable (s : State) : Repeatable microExtract s := by
  cases hm : markersOk s.val with
  | true =>
    refine repeatable_of_done (microExtract_of_ok hm) ?_
    rw [microExtract_of_ok (by simpa using hm), State.withBlock_of_eq] <;> simp
  | false => exact repeatable_of_raise (microExtract_of_bad hm) (microExtract_of_bad (by simpa using hm))

theorem microEnc_repeatable (rc : RoundConstants) (x : Index) (s : State) : Repeatable (microEnc rc x) s := by
  cases hd : inDomain x with
  | true =>
    refine repeatable_of_done (microEnc_of_lt hd s) ?_
    rw [microEnc_of_lt hd, State.withIdx_of_eq, State.withBlock_of_eq, State.withVal_of_eq, State.withTxt_of_eq] <;>
      simp
  | false =>
    refine repeatable_of_raise (microEnc_of_ge hd s) ?_
    rw [microEnc_of_ge hd, State.withIdx_of_eq]
    simp

theorem microDec_repeatable (rc : RoundConstants) (u : Text) (s : State) : Repeatable (microDec rc u) s := by
  cases hp : parseText u with
  | none =>
    refine repeatable_of_raise (microDec_of_none hp s) ?_
    rw [microDec_of_none hp, State.withTxt_of_eq]
    simp
  | some v =>
    cases hm : markersOk v with
    | true =>
      refine repeatable_of_done (microDec_of_ok hp hm s) ?_
      rw [microDec_of_ok hp hm, State.withTxt_of_eq, State.withVal_of_eq, State.withBlock_of_eq,
        State.withIdx_of_eq] <;> simp
    | false =>
      refine repeatable_of_raise (microDec_of_bad hp hm s) ?_
      rw [microDec_of_bad hp hm, State.withTxt_of_eq, State.withVal_of_eq] <;> simp

theorem engine_repeatable {i : Instr} (hround : i ≠ .round) (hunround : i ≠ .unround) (rc : RoundConstants) (s : State) :
    Repeatable (engine rc i) s := by
  cases i with
  | nop => exact repeatable_of_done (microNop_eq s) (microNop_eq _)
  | enc x => exact microEnc_repeatable rc x s
  | dec u => exact microDec_repeatable rc u s
  | clr => exact repeatable_of_write microClr_eq s.cleared_complete_ok
  | ldidx x => exact repeatable_of_write (microLdidx_eq x) (State.withIdx_of_eq (by simp))
  | ldtxt u => exact repeatable_of_write (microLdtxt_eq u) (State.withTxt_of_eq (by simp))
  | split => exact microSplit_repeatable s
  | round => exact absurd rfl hround
  | unround => exact absurd rfl hunround
  | pack => exact repeatable_of_write microPack_eq (State.withVal_of_eq (by simp))
  | extract => exact microExtract_repeatable s
  | fmt => exact repeatable_of_write microFmt_eq (State.withTxt_of_eq (by simp))
  | parse => exact microParse_repeatable s
  | join => exact repeatable_of_write microJoin_eq (State.withIdx_of_eq (by simp))
  | reservedE => exact repeatable_of_raise (microReservedE_eq s) (microReservedE_eq _)
  | reservedF => exact repeatable_of_raise (microReservedF_eq s) (microReservedF_eq _)

/-! ## The two rounds -/

/-- After a completed command ROUND changes something: the round count, or the response where it is refused. -/
theorem after_round_ne_self {rc : RoundConstants} {t : State} (h : t.rsp = 0) : after rc .round t ≠ t := by
  intro heq
  rcases Nat.lt_or_ge t.rnd.toNat 4 with hr | hr
  · have hrnd := congrArg State.rnd heq
    rw [after_rnd, engine, microRound_of_lt hr, done_fst, State.withBlock_rnd] at hrnd
    bv_omega
  · have hrsp := congrArg State.rsp heq
    rw [after_rsp, engine, microRound_of_ge hr, raise_snd, h] at hrsp
    exact absurd hrsp (by decide)

/-- After a completed command UNROUND changes something: the round count, or the response where it is refused. -/
theorem after_unround_ne_self {rc : RoundConstants} {t : State} (h : t.rsp = 0) : after rc .unround t ≠ t := by
  intro heq
  by_cases hr : t.rnd = 0 ∨ 4 < t.rnd.toNat
  · have hrsp := congrArg State.rsp heq
    rw [after_rsp, engine, microUnround_of_illegal hr, raise_snd, h] at hrsp
    exact absurd hrsp (by decide)
  · rw [not_or, not_lt] at hr
    obtain ⟨h0, h4⟩ := hr
    have hrnd := congrArg State.rnd heq
    rw [after_rnd, engine, microUnround_of_legal h0 h4, done_fst, State.withBlock_rnd] at hrnd
    bv_omega

theorem exec_ne_next_self {i : Instr} {s : State} (h : after Config.roundConstants i s ≠ s) : exec i s ≠ .next s := by
  rw [exec_eq_after]
  exact fun heq => h (Host.Outcome.next.inj heq)

/-- Settles O54: every command but the rounds is repeatable; a round that completes answers 0, from where another
round changes the round count or is refused. -/
theorem allButRoundsAreIdempotent : Obligations.AllButRoundsAreIdempotent := by
  refine ⟨fun i s hround hunround => ?_, fun s hr => ?_, fun s h1 h4 => ?_⟩
  · refine ⟨_, exec_eq_after i s, ?_⟩
    rw [exec_eq_after, after_after_of_repeatable (engine_repeatable hround hunround _ s)]
  · refine ⟨_, exec_eq_after .round s, exec_ne_next_self (after_round_ne_self ?_)⟩
    rw [after_rsp, engine, microRound_of_lt hr, done_snd, Status.code_ok]
  · refine ⟨_, exec_eq_after .unround s, exec_ne_next_self (after_unround_ne_self ?_)⟩
    have h0 : s.rnd ≠ 0 := by bv_omega
    rw [after_rsp, engine, microUnround_of_legal h0 h4, done_snd, Status.code_ok]

end Sys2Proof.Machine
end

section
/-!
SUPPORT. The opcode map (rule R51). The match of `decode` looks at the opcode alone, so each row holds by computation
while both ports stay variables.
-/
namespace Sys2Proof.Machine

/-- Settles O1: the rows of rule R51 in the order of their opcodes, four to a line. -/
theorem opcodeMapSampleWords : Obligations.OpcodeMapSampleWords := by
  intro x t
  exact ⟨rfl, rfl, rfl, rfl,
    rfl, rfl, rfl, rfl,
    rfl, rfl, rfl, rfl,
    rfl, rfl, rfl, rfl⟩

end Sys2Proof.Machine
end

section
/-!
SUPPORT. Mask, rotation and product by MULT (rules R70 to R72): each as an operation on 61-bit words, and a bijection.
-/
namespace Sys2Proof.Machine

/-- Settles O17: the AND with `2^61 - 1` is the remainder modulo `2^61`. -/
theorem maskIsRemainder : Obligations.MaskIsRemainder :=
  fun v => ⟨mask61_toNat v, by rw [mask61_toNat, Nat.and_two_pow_sub_one_eq_mod]⟩

/-! ## The rotation (rule R71) -/

/-- The formula of rule R71 on 61-bit words, where the shift drops the bits the mask removes. -/
theorem rotl61_eq_shifts (x : Half) (n : Nat) : rotl61 x n = x <<< n ||| x >>> (61 - n) := by
  apply BitVec.eq_of_toNat_eq
  have hhigh : x.toNat >>> (61 - n) < 2 ^ 61 := Nat.lt_of_le_of_lt (Nat.shiftRight_le _ _) x.isLt
  rw [rotl61, mask61_toNat, Nat.or_mod_two_pow, Nat.mod_eq_of_lt hhigh, BitVec.toNat_or, BitVec.toNat_shiftLeft,
    BitVec.toNat_ushiftRight]

theorem rotl61_eq_rotateLeft (x : Half) {n : Nat} (h : n < 61) : rotl61 x n = x.rotateLeft n := by
  rw [rotl61_eq_shifts, BitVec.rotateLeft_def, Nat.mod_eq_of_lt h]

/-- Bit `i` comes from the place `n` below it, counted round the 61 bits (rule R71). -/
theorem rotl61_getLsbD (x : Half) {n i : Nat} (hn : n < 61) (hi : i < 61) :
    (rotl61 x n).getLsbD i = x.getLsbD ((i + 61 - n) % 61) := by
  rw [rotl61_eq_rotateLeft x hn, BitVec.getLsbD_rotateLeft, Nat.mod_eq_of_lt hn]
  rcases Nat.lt_or_ge i n with h | h
  · rw [decide_eq_true h, cond_true, show (i + 61 - n) % 61 = 61 - n + i by omega]
  · rw [decide_eq_false (by omega), cond_false, decide_eq_true hi, Bool.true_and,
      show (i + 61 - n) % 61 = i - n by omega]

/-- A rotation by `n` and one by `61 - n` make a whole turn (rule R71). -/
theorem rotl61_rotl61_sub (x : Half) {n : Nat} (h1 : 1 ≤ n) (h60 : n ≤ 60) : rotl61 (rotl61 x n) (61 - n) = x := by
  apply BitVec.eq_of_getLsbD_eq
  intro i hi
  have hturn : ((i + 61 - (61 - n)) % 61 + 61 - n) % 61 = i := by omega
  rw [rotl61_getLsbD _ (by omega) hi, rotl61_getLsbD _ (by omega) (by omega), hturn]

theorem rotl61_bijective {n : Nat} (h1 : 1 ≤ n) (h60 : n ≤ 60) : Function.Bijective (rotl61 · n) :=
  have hleft : Function.LeftInverse (rotl61 · (61 - n)) (rotl61 · n) := fun x => rotl61_rotl61_sub x h1 h60
  Finite.injective_iff_bijective.mp hleft.injective

/-- Settles O18: the rotation has an inverse, and the bit that leaves position 60 re-enters at position 0. -/
theorem rotationStaysWithin61Bits : Obligations.RotationStaysWithin61Bits := by
  refine ⟨fun x n h1 h60 => ⟨fun i hi => ?_, ?_, rotl61_rotl61_sub x h1 h60⟩, by decide⟩
  · exact rotl61_getLsbD x (by omega) hi
  · rw [rotl61, mask61_toNat, Nat.and_two_pow_sub_one_eq_mod]

/-! ## The product by MULT (rule R72) -/

theorem mulmask_eq_mul (x : Half) : mulmask x = x * 0x6c8e944d1f5aa3b7#61 := by
  apply BitVec.eq_of_toNat_eq
  rw [mulmask_toNat, BitVec.toNat_mul, BitVec.toNat_ofNat, Nat.mul_mod_mod]

/-- MULT is odd, so the product by it modulo `2^61` can be divided out again (rule R72). -/
theorem mulmask_bijective : Function.Bijective mulmask := by
  refine Finite.injective_iff_bijective.mp fun x y h => BitVec.eq_of_toNat_eq ?_
  have hcoprime : Nat.Coprime (2 ^ 61) 0x6c8e944d1f5aa3b7 := Nat.Coprime.pow_left 61 (by decide)
  have hprod : x.toNat * 0x6c8e944d1f5aa3b7 ≡ y.toNat * 0x6c8e944d1f5aa3b7 [MOD 2 ^ 61] := by
    rw [Nat.ModEq, ← mulmask_toNat, ← mulmask_toNat, h]
  exact (Nat.ModEq.cancel_right_of_coprime hcoprime hprod).eq_of_lt_of_lt x.isLt y.isLt

/-- Settles O19: modulo `2^61` neither a wrap at a higher power of two nor MULT's bits above 60 are seen. -/
theorem mulmaskNeedsOnlyLowBits : Obligations.MulmaskNeedsOnlyLowBits := by
  refine ⟨fun x k hk => ?_, fun x => ?_, mulmask_bijective⟩
  · rw [mulmask_toNat, Nat.mod_mod_of_dvd _ (Nat.pow_dvd_pow 2 hk)]
  · have hlow : 0x6c8e944d1f5aa3b7 % 2 ^ 61 = 0x0C8E944D1F5AA3B7 := by decide
    rw [mulmask_toNat, ← hlow, Nat.mul_mod_mod]

end Sys2Proof.Machine
end

section
/-!
SUPPORT. The round function (rules R73, R89, R90): a bijection of 61-bit words, and the same in wrapping 64-bit words.
-/
namespace Sys2Proof.Machine

theorem F_bijective (rc : RoundConstants) (r : BitVec 3) : Function.Bijective (F rc · r) := by
  have hxor : Function.Bijective (· ^^^ (rc[r.toNat]).setWidth 61 : Half → Half) :=
    Function.Involutive.bijective fun x => by simp
  have hF : (F rc · r) = (rotl61 · 13) ∘ mulmask ∘ (rotl61 · 7) ∘ (· ^^^ (rc[r.toNat]).setWidth 61) :=
    funext fun block => F_eq rc block r
  rw [hF]
  exact (rotl61_bijective (by decide) (by decide)).comp
    (mulmask_bijective.comp ((rotl61_bijective (by decide) (by decide)).comp hxor))

theorem F_maskedConstant (rc : RoundConstants) (r : BitVec 3) : F rc ((rc[r.toNat]).setWidth 61) r = 0 := by
  rw [F_eq, BitVec.xor_self]
  decide

/-- Settles O21: each stage of `F` is a bijection, and the masked constant goes to 0. -/
theorem roundFunctionIsBijective : Obligations.RoundFunctionIsBijective := fun rc r =>
  ⟨F_bijective rc r, fun _ => (F_bijective rc r).injective.eq_iff' (F_maskedConstant rc r)⟩

/-! ## In 64-bit words (rule R90) -/

/-- The mask of a 64-bit word keeps its low 61 bits. -/
theorem and_mask64 (w : BitVec 64) : w &&& 0x1FFFFFFFFFFFFFFF#64 = (w.setWidth 61).setWidth 64 := by
  apply BitVec.eq_of_toNat_eq
  rw [BitVec.toNat_and, BitVec.toNat_setWidth_of_le (by decide), BitVec.toNat_setWidth]
  exact Nat.and_two_pow_sub_one_eq_mod w.toNat 61

theorem rotl61_setWidth64 (x : Half) (n : Nat) :
    (rotl61 x n).setWidth 64 = ((x.setWidth 64 <<< n) ||| (x.setWidth 64 >>> (61 - n))) &&& 0x1FFFFFFFFFFFFFFF#64 := by
  rw [and_mask64, rotl61_eq_shifts]
  congr 1
  ext i hi
  have hhigh : (decide (61 - n + i < 64) && x.getLsbD (61 - n + i)) = x.getLsbD (61 - n + i) := by
    simpa using fun h => (BitVec.lt_of_getLsbD h).trans (by decide)
  simp [hhigh]

theorem mulmask_setWidth64 (x : Half) :
    (mulmask x).setWidth 64 = (x.setWidth 64 * 0x6c8e944d1f5aa3b7#64) &&& 0x1FFFFFFFFFFFFFFF#64 := by
  have hx : (x.setWidth 64).setWidth 61 = x := by simp
  rw [and_mask64, mulmask_eq_mul, BitVec.setWidth_mul _ _ (by decide : 61 ≤ 64), hx,
    BitVec.setWidth_ofNat_of_le (by decide)]

/-- Settles O20: the masked 64-bit word after each step is the 61-bit word of that step, extended with zeros. -/
theorem roundFunctionIn64BitWords : Obligations.RoundFunctionIn64BitWords := by
  intro rc block r m r1 r2 r3 r4
  have h1 : r1 = (block ^^^ (rc[r.toNat]).setWidth 61).setWidth 64 := by rw [BitVec.setWidth_xor, ← and_mask64]
  have h2 : r2 = (rotl61 (block ^^^ (rc[r.toNat]).setWidth 61) 7).setWidth 64 := by rw [rotl61_setWidth64, ← h1]
  have h3 : r3 = (mulmask (rotl61 (block ^^^ (rc[r.toNat]).setWidth 61) 7)).setWidth 64 := by
    rw [mulmask_setWidth64, ← h2]
  rw [F_eq, rotl61_setWidth64, ← h3]

end Sys2Proof.Machine
end

section
/-!
SUPPORT. The inverse pairs of rules R85 to R87: a round and its inverse, split and join, pack and extract.
-/
namespace Sys2Proof.Machine

/-! ## Rounds (rule R85) -/

/-- Both recompute `F` on the half that the round moved unchanged, and XOR it in twice. -/
@[simp] theorem feistelUnround_feistelRound (rc : RoundConstants) (r : BitVec 3) (lr : Half × Half) :
    feistelUnround rc r (feistelRound rc r lr) = lr := by
  simp [feistelUnround, feistelRound]

@[simp] theorem feistelRound_feistelUnround (rc : RoundConstants) (r : BitVec 3) (lr : Half × Half) :
    feistelRound rc r (feistelUnround rc r lr) = lr := by
  simp [feistelUnround, feistelRound]

@[simp] theorem unpermute_permute (rc : RoundConstants) (lr : Half × Half) : unpermute rc (permute rc lr) = lr := by
  simp [unpermute, permute]

@[simp] theorem permute_unpermute (rc : RoundConstants) (lr : Half × Half) : permute rc (unpermute rc lr) = lr := by
  simp [unpermute, permute]

/-- Settles O22: one round each way, and four of them peeled off from the inside. -/
theorem roundsAreInverse : Obligations.RoundsAreInverse := fun rc lr =>
  ⟨fun r => ⟨feistelUnround_feistelRound rc r lr, feistelRound_feistelUnround rc r lr⟩,
    unpermute_permute rc lr, permute_unpermute rc lr⟩

/-! ## Split and join (rule R86) -/

theorem splitIndex_fst_toNat (x : Index) : (splitIndex x).1.toNat = x.toNat / 2 ^ 61 % 2 ^ 61 := by
  rw [splitIndex, BitVec.toNat_ofNat, Nat.shiftRight_eq_div_pow]

theorem splitIndex_snd_toNat (x : Index) : (splitIndex x).2.toNat = x.toNat % 2 ^ 61 := mask61_toNat x.toNat

theorem joinHalves_lt (lr : Half × Half) : (joinHalves lr).toNat < 2 ^ 122 := by
  rw [joinHalves_toNat]
  omega

theorem joinHalves_splitIndex {x : Index} (h : x.toNat < 2 ^ 122) : joinHalves (splitIndex x) = x := by
  apply BitVec.eq_of_toNat_eq
  rw [joinHalves_toNat, splitIndex_fst_toNat, splitIndex_snd_toNat]
  omega

theorem splitIndex_joinHalves (lr : Half × Half) : splitIndex (joinHalves lr) = lr := by
  apply Prod.ext <;> apply BitVec.eq_of_toNat_eq
  · rw [splitIndex_fst_toNat, joinHalves_toNat]
    omega
  · rw [splitIndex_snd_toNat, joinHalves_toNat]
    omega

/-- Settles O23: quotient and remainder by `2^61`, each way. -/
theorem splitAndJoinAreInverse : Obligations.SplitAndJoinAreInverse :=
  ⟨fun _ h => joinHalves_splitIndex h, fun lr => ⟨splitIndex_joinHalves lr, joinHalves_lt lr⟩⟩

end Sys2Proof.Machine
end

section
/-!
SUPPORT. Pack and extract (rules R79 to R81, R87): shifted fields ORed together are the fields written one after the
other, so each is read back from where it was put.
-/
namespace Sys2Proof.Machine

/-! ## A value by its fields (rule R56) -/

/-- The identifier value with these six fields, the most significant first. -/
def valueOfFields (high : BitVec 48) (version : BitVec 4) (mid : BitVec 12) (variant : BitVec 2) (low : BitVec 1)
    (right : Half) : Value :=
  high ++ version ++ mid ++ variant ++ low ++ right

/-! A field is read by passing the fields below it one by one. -/

section Fields

variable (high : BitVec 48) (version : BitVec 4) (mid : BitVec 12) (variant : BitVec 2) (low : BitVec 1) (right : Half)

@[simp] theorem valueRight_valueOfFields : valueRight (valueOfFields high version mid variant low right) = right :=
  BitVec.extractLsb'_append_eq_right

@[simp] theorem valueLeftLow_valueOfFields : valueLeftLow (valueOfFields high version mid variant low right) = low := by
  refine (BitVec.extractLsb'_append_eq_of_le (by decide)).trans ?_
  exact BitVec.extractLsb'_append_eq_right

@[simp] theorem valueVariant_valueOfFields :
    valueVariant (valueOfFields high version mid variant low right) = variant := by
  iterate 2 refine (BitVec.extractLsb'_append_eq_of_le (by decide)).trans ?_
  exact BitVec.extractLsb'_append_eq_right

@[simp] theorem valueLeftMid_valueOfFields : valueLeftMid (valueOfFields high version mid variant low right) = mid := by
  iterate 3 refine (BitVec.extractLsb'_append_eq_of_le (by decide)).trans ?_
  exact BitVec.extractLsb'_append_eq_right

@[simp] theorem valueVersion_valueOfFields :
    valueVersion (valueOfFields high version mid variant low right) = version := by
  iterate 4 refine (BitVec.extractLsb'_append_eq_of_le (by decide)).trans ?_
  exact BitVec.extractLsb'_append_eq_right

@[simp] theorem valueLeftHigh_valueOfFields :
    valueLeftHigh (valueOfFields high version mid variant low right) = high := by
  iterate 5 refine (BitVec.extractLsb'_append_eq_of_le (by decide)).trans ?_
  exact BitVec.extractLsb'_eq_self

end Fields

/-- A value is made of its own fields. -/
theorem valueOfFields_fields (v : Value) : valueOfFields (valueLeftHigh v) (valueVersion v) (valueLeftMid v)
    (valueVariant v) (valueLeftLow v) (valueRight v) = v := by
  simp only [valueOfFields, valueLeftHigh, valueVersion, valueLeftMid, valueVariant, valueLeftLow, valueRight,
    BitVec.extractLsb]
  iterate 5 rw [BitVec.extractLsb'_append_extractLsb'_eq_extractLsb' (by decide)]
  exact BitVec.extractLsb'_eq_self

theorem markersOk_iff (v : Value) : markersOk v = true ↔ valueVersion v = VERSION ∧ valueVariant v = VARIANT := by
  rw [markersOk, Bool.and_eq_true, beq_iff_eq, beq_iff_eq]

/-! ## Pack and extract by fields -/

/-- Writing `x` above `y` is shifting `x` past `y` and ORing, in any width that both are extended to. -/
theorem setWidth_append_eq_or {n m : Nat} (x : BitVec n) (y : BitVec m) (w : Nat) :
    (x ++ y).setWidth w = x.setWidth w <<< m ||| y.setWidth w := by
  ext i hi
  rcases Nat.lt_or_ge i m with h | h
  · simp [BitVec.getLsbD_append, h]
  · simp [BitVec.getLsbD_append, Nat.not_lt.mpr h, BitVec.getLsbD_of_ge y i h]

/-- Rule R81: the fields of the left half stand one after the other. -/
theorem extractHalves_eq_fields (v : Value) :
    extractHalves v = (valueLeftHigh v ++ valueLeftMid v ++ valueLeftLow v, valueRight v) := by
  rw [extractHalves, ← BitVec.setWidth_eq (valueLeftHigh v ++ valueLeftMid v ++ valueLeftLow v), setWidth_append_eq_or,
    setWidth_append_eq_or, BitVec.shiftLeft_or_distrib, ← BitVec.shiftLeft_add]

/-- Rule R79: the left half cut in three, the markers between the pieces. -/
theorem packHalves_eq_fields (lr : Half × Half) : packHalves lr =
    valueOfFields (lr.1.extractLsb 60 13) VERSION (lr.1.extractLsb 12 1) VARIANT (lr.1.extractLsb 0 0) lr.2 := by
  have hhigh : (lr.1.extractLsb 60 13).setWidth 128 = lr.1.setWidth 128 >>> 13 := by
    apply BitVec.eq_of_toNat_eq
    simp only [BitVec.toNat_setWidth, BitVec.extractLsb_toNat, BitVec.toNat_ushiftRight, Nat.shiftRight_eq_div_pow]
    omega
  have hmid : (lr.1.extractLsb 12 1).setWidth 128 = lr.1.setWidth 128 >>> 1 &&& 0xFFF#128 := by
    have hmask : (0xFFF#128).toNat = 2 ^ 12 - 1 := by decide
    apply BitVec.eq_of_toNat_eq
    simp only [BitVec.toNat_setWidth, BitVec.extractLsb_toNat, BitVec.toNat_and, hmask, BitVec.toNat_ushiftRight,
      Nat.and_two_pow_sub_one_eq_mod, Nat.shiftRight_eq_div_pow]
    omega
  have hlow : (lr.1.extractLsb 0 0).setWidth 128 = lr.1.setWidth 128 &&& 1#128 := by
    have hmask : (1#128).toNat = 2 ^ 1 - 1 := by decide
    apply BitVec.eq_of_toNat_eq
    simp only [BitVec.toNat_setWidth, BitVec.extractLsb_toNat, BitVec.toNat_and, hmask,
      Nat.and_two_pow_sub_one_eq_mod, Nat.shiftRight_zero]
    omega
  rw [packHalves, valueOfFields, ← BitVec.setWidth_eq (_ ++ _)]
  simp only [setWidth_append_eq_or, BitVec.shiftLeft_or_distrib, ← BitVec.shiftLeft_add, hhigh, hmid, hlow]

/-! ## Both ways (rule R87) -/

theorem markersOk_packHalves (lr : Half × Half) : markersOk (packHalves lr) = true := by
  simp [markersOk_iff, packHalves_eq_fields]

theorem extractHalves_packHalves (lr : Half × Half) : extractHalves (packHalves lr) = lr := by
  simp only [extractHalves_eq_fields, packHalves_eq_fields, valueLeftHigh_valueOfFields, valueLeftMid_valueOfFields,
    valueLeftLow_valueOfFields, valueRight_valueOfFields, BitVec.extractLsb]
  iterate 2 rw [BitVec.extractLsb'_append_extractLsb'_eq_extractLsb' (by decide)]
  exact Prod.ext BitVec.extractLsb'_eq_self rfl

theorem packHalves_extractHalves {v : Value} (h : markersOk v = true) : packHalves (extractHalves v) = v := by
  obtain ⟨hversion, hvariant⟩ := (markersOk_iff v).mp h
  have hhigh : (valueLeftHigh v ++ valueLeftMid v ++ valueLeftLow v).extractLsb 60 13 = valueLeftHigh v := by
    iterate 2 refine (BitVec.extractLsb'_append_eq_of_le (by decide)).trans ?_
    exact BitVec.extractLsb'_eq_self
  have hmid : (valueLeftHigh v ++ valueLeftMid v ++ valueLeftLow v).extractLsb 12 1 = valueLeftMid v := by
    refine (BitVec.extractLsb'_append_eq_of_le (by decide)).trans ?_
    exact BitVec.extractLsb'_append_eq_right
  have hlow : (valueLeftHigh v ++ valueLeftMid v ++ valueLeftLow v).extractLsb 0 0 = valueLeftLow v :=
    BitVec.extractLsb'_append_eq_right
  calc packHalves (extractHalves v)
      = valueOfFields (valueLeftHigh v) VERSION (valueLeftMid v) VARIANT (valueLeftLow v) (valueRight v) := by
        rw [packHalves_eq_fields, extractHalves_eq_fields, hhigh, hmid, hlow]
    _ = v := by rw [← hversion, ← hvariant, valueOfFields_fields]

/-- Settles O24: the fields are read back from where they were put, and right markers are those pack puts beside them. -/
theorem packAndExtractAreInverse : Obligations.PackAndExtractAreInverse :=
  ⟨fun lr => ⟨markersOk_packHalves lr, extractHalves_packHalves lr⟩, fun _ h => packHalves_extractHalves h⟩

end Sys2Proof.Machine
end

section
/-!
SUPPORT. Format and parse (rules R83, R84, R88): digit `j` of the value against the character at `pos(j)`.
-/
namespace Sys2Proof.Machine

/-! ## Format -/

theorem fmtValue_hyphen (v : Value) {k : Fin 36} (h : isHyphenOffset k.val = true) : (fmtValue v)[k] = HYPHEN := by
  rw [fmtValue_get, fmtChar, if_pos h]

theorem fmtValue_pos (v : Value) (j : Fin 32) : (fmtValue v)[pos j] = hexchar (digit v j.val) := by
  rw [fmtValue_get, fmtChar, isHyphenOffset_pos, digitAt_pos]
  rfl

/-- Every offset without a hyphen is the place of a digit (rule R57). -/
theorem exists_pos_eq {k : Fin 36} (h : isHyphenOffset k.val = false) : ∃ j : Fin 32, pos j = k :=
  ⟨⟨digitAt k.val, digitAt_lt k h⟩, Fin.ext (pos_digitAt k h)⟩

/-! ## Parse -/

theorem charOk_of_hyphen {t : Text} {k : Fin 36} (h : isHyphenOffset k.val = true) :
    charOk t k = true ↔ t[k] = HYPHEN := by
  rw [charOk, if_pos h, beq_iff_eq]

theorem charOk_of_digit {t : Text} {k : Fin 36} (h : isHyphenOffset k.val = false) :
    charOk t k = true ↔ (hexval t[k]).isSome = true := by
  rw [charOk, if_neg (by simp [h])]

theorem isHyphenOffset_iff (k : Fin 36) : isHyphenOffset k.val = true ↔ k = 8 ∨ k = 13 ∨ k = 18 ∨ k = 23 := by
  revert k; decide

theorem isHyphenOffset_eq_false_iff (k : Fin 36) : isHyphenOffset k.val = false ↔ k.val ∉ [8, 13, 18, 23] := by
  revert k; decide

/-- The check of rule R84 offset by offset, the hyphens apart from the digits. -/
theorem textOk_iff_hexWithHyphens (t : Text) : textOk t = true ↔ HexWithHyphens t := by
  rw [textOk_iff_charOk]
  refine ⟨fun h => ⟨⟨?_, ?_, ?_, ?_⟩, fun k hk => ?_⟩, fun ⟨⟨h8, h13, h18, h23⟩, hdigit⟩ k => ?_⟩
  · exact (charOk_of_hyphen (k := 8) (by decide)).mp (h 8)
  · exact (charOk_of_hyphen (k := 13) (by decide)).mp (h 13)
  · exact (charOk_of_hyphen (k := 18) (by decide)).mp (h 18)
  · exact (charOk_of_hyphen (k := 23) (by decide)).mp (h 23)
  · exact (hexval_isSome _).mp ((charOk_of_digit ((isHyphenOffset_eq_false_iff k).mpr hk)).mp (h k))
  · cases hk : isHyphenOffset k.val with
    | true =>
      rw [charOk_of_hyphen hk]
      obtain rfl | rfl | rfl | rfl := (isHyphenOffset_iff k).mp hk
      · exact h8
      · exact h13
      · exact h18
      · exact h23
    | false =>
      rw [charOk_of_digit hk, hexval_isSome]
      exact hdigit k ((isHyphenOffset_eq_false_iff k).mp hk)

theorem parseText_isSome (t : Text) : (parseText t).isSome = true ↔ HexWithHyphens t := by
  rw [← textOk_iff_hexWithHyphens, parseText]
  split <;> simp [*]

theorem parseText_eq_some {t : Text} {v : Value} (h : parseText t = some v) :
    textOk t = true ∧ v.toNat = digitsNat (textDigit t) 32 := by
  rw [parseText] at h
  split at h
  next hok =>
    cases h
    exact ⟨hok, Nat.mod_eq_of_lt (digitsNat_lt (textDigit_lt t) 32)⟩
  next => cases h

theorem textDigit_of_hexval {t : Text} {j : Fin 32} {n : Nibble} (h : hexval t[pos j] = some n) :
    textDigit t j.val = n.toNat := by
  rw [textDigit, dif_pos j.isLt, h, Option.getD_some]

/-- The value a text parses to has the digits the text spells (rule R84). -/
theorem hexval_pos_of_parseText {t : Text} {v : Value} (h : parseText t = some v) (j : Fin 32) :
    hexval t[pos j] = some (digit v j.val) := by
  obtain ⟨hok, hv⟩ := parseText_eq_some h
  have hchar : charOk t (pos j) = true := (textOk_iff_charOk t).mp hok (pos j)
  rw [charOk_of_digit (isHyphenOffset_pos j)] at hchar
  obtain ⟨n, hn⟩ := Option.isSome_iff_exists.mp hchar
  have hdigit : digit v j.val = n := BitVec.eq_of_toNat_eq <| by
    rw [digit_toNat_pow v j.isLt, hv, digitsNat_digit (textDigit_lt t) 32 j.val j.isLt, textDigit_of_hexval hn]
  rw [hn, hdigit]

/-! ## Both ways (rule R88) -/

theorem textOk_fmtValue (v : Value) : textOk (fmtValue v) = true := by
  rw [textOk_iff_charOk]
  intro k
  cases hk : isHyphenOffset k.val with
  | true => exact (charOk_of_hyphen hk).mpr (fmtValue_hyphen v hk)
  | false =>
    obtain ⟨j, rfl⟩ := exists_pos_eq hk
    rw [charOk_of_digit hk, fmtValue_pos, hexval_hexchar, Option.isSome_some]

theorem parseText_fmtValue (v : Value) : parseText (fmtValue v) = some v := by
  have hdigits : digitsNat (textDigit (fmtValue v)) 32 = v.toNat % 16 ^ 32 := by
    refine digitsNat_of_digits v.toNat 32 fun j hj => ?_
    have hchar : hexval (fmtValue v)[pos ⟨j, hj⟩] = some (digit v j) := by rw [fmtValue_pos, hexval_hexchar]
    rw [textDigit_of_hexval (j := ⟨j, hj⟩) hchar, digit_toNat_pow v hj]
  rw [parseText, if_pos (textOk_fmtValue v), hdigits]
  exact congrArg some (BitVec.eq_of_toNat_eq (by rw [BitVec.toNat_ofNat]; omega))

theorem fmtValue_of_parseText {t : Text} {v : Value} (h : parseText t = some v) : fmtValue v = t := by
  obtain ⟨hok, -⟩ := parseText_eq_some h
  suffices hchar : ∀ k : Fin 36, (fmtValue v)[k] = t[k] from Vector.ext fun i hi => hchar ⟨i, hi⟩
  intro k
  cases hk : isHyphenOffset k.val with
  | true => rw [fmtValue_hyphen v hk, (charOk_of_hyphen hk).mp ((textOk_iff_charOk t).mp hok k)]
  | false =>
    obtain ⟨j, rfl⟩ := exists_pos_eq hk
    rw [fmtValue_pos, hexchar_of_hexval (hexval_pos_of_parseText h j)]

/-- Settles O25: `hexval` and `hexchar` undo each other at each digit's place, and the hyphens stand fixed. -/
theorem formatAndParseAreInverse : Obligations.FormatAndParseAreInverse :=
  ⟨parseText_fmtValue, fun _ _ => fmtValue_of_parseText, parseText_isSome⟩

end Sys2Proof.Machine
end

section
/-!
SUPPORT. The forward commands (rules R100 to R104): the whole next state of each, from the law of its micro-command and
how a command completes or raises.
-/
namespace Sys2Proof.Machine

/-! ## From a micro-command to its command -/

/-- A command that completes answers what it wrote, the sticky `ERR` left (rules R24, R155). -/
theorem exec_of_done (i : Instr) {s t : State} (h : engine Config.roundConstants i s = done t) :
    exec i s = .next { t with rsp := 0 } := by
  rw [exec_eq_after, after, h, done_fst, done_snd, State.complete_ok]

/-- A command that raises answers its status, no register but the sticky `ERR` touched (rules R154, R155). -/
theorem exec_of_raise (i : Instr) {s t : State} {x : Status} (hx : x ≠ .ok)
    (h : engine Config.roundConstants i s = raise x t) :
    exec i s = .next { t with err := if t.err = 0 then x.code else t.err, rsp := x.code } := by
  rw [exec_eq_after, after, h, raise_fst, raise_snd, State.complete_raise t hx]

/-! ## LDIDX (rule R100) -/

/-- Settles O26: LDIDX always completes. -/
theorem ldidxLoadsTheIndex : Obligations.LdidxLoadsTheIndex :=
  ⟨fun _ _ => rfl, fun x s => exec_of_done (.ldidx x) (microLdidx_eq x s)⟩

/-! ## SPLIT (rule R101) -/

/-- An index is outside the domain exactly when its top six bits are not all 0 (rule R101). -/
theorem le_toNat_iff_top_ne_zero (x : Index) : 2 ^ 122 ≤ x.toNat ↔ x.extractLsb 127 122 ≠ 0#6 := by
  have htop : (x.extractLsb 127 122).toNat = x.toNat / 2 ^ 122 := by
    rw [BitVec.extractLsb_toNat, Nat.shiftRight_eq_div_pow]
    omega
  rw [ne_eq, ← BitVec.toNat_inj, htop, BitVec.toNat_ofNat]
  omega

/-- Rule R77 by fields: the halves are the bits `[121:61]` and `[60:0]` of the index. -/
theorem splitIndex_eq_fields (x : Index) : splitIndex x = (x.extractLsb 121 61, x.extractLsb 60 0) := by
  apply Prod.ext <;> apply BitVec.eq_of_toNat_eq
  · rw [splitIndex_fst_toNat, BitVec.extractLsb_toNat, Nat.shiftRight_eq_div_pow]
  · rw [splitIndex_snd_toNat, BitVec.extractLsb_toNat, Nat.shiftRight_zero]

theorem exec_split_of_ge {s : State} (h : 2 ^ 122 ≤ s.idx.toNat) :
    exec .split s = .next { s with err := if s.err = 0 then 1 else s.err, rsp := 1 } := by
  have hout : inDomain s.idx = false := by rwa [← Bool.not_eq_true, inDomain_iff, not_lt]
  exact exec_of_raise .split (by decide) (microSplit_of_ge hout)

theorem exec_split_of_lt {s : State} (h : s.idx.toNat < 2 ^ 122) : exec .split s =
    .next { s with l := s.idx.extractLsb 121 61, r := s.idx.extractLsb 60 0, rnd := 0, rsp := 0 } := by
  have hsplit := microSplit_of_lt ((inDomain_iff s.idx).mpr h)
  rw [splitIndex_eq_fields] at hsplit
  exact exec_of_done .split hsplit

/-- Settles O27: the two sides of `2^122`. -/
theorem splitChecksAndSplits : Obligations.SplitChecksAndSplits := by
  refine ⟨fun _ _ => rfl, fun s => ⟨le_toNat_iff_top_ne_zero s.idx, ?_⟩⟩
  split
  case isTrue h => exact exec_split_of_ge h
  case isFalse h => exact exec_split_of_lt (not_le.mp h)

/-! ## ROUND (rule R102) -/

theorem feistelRound_eq (rc : RoundConstants) (r : BitVec 3) (lr : Half × Half) :
    feistelRound rc r lr = (lr.2, lr.1 ^^^ F rc lr.2 r) := by
  rw [feistelRound, mask61_self]

/-- Settles O28: refused from four rounds on, else one round of `feistelRound` under the round count. -/
theorem roundAppliesOneRound : Obligations.RoundAppliesOneRound := by
  refine ⟨fun _ _ => rfl, fun s => ?_⟩
  split
  case isTrue h => exact exec_of_raise .round (by decide) (microRound_of_ge h)
  case isFalse h =>
    have hround := microRound_of_lt (rc := Config.roundConstants) (not_le.mp h)
    have hcount : s.rnd + 1 = BitVec.ofNat 3 (s.rnd.toNat + 1) := by bv_omega
    rw [feistelRound_eq, hcount] at hround
    exact exec_of_done .round hround

/-! ## PACK (rule R103) -/

/-- Settles O29: the packed value is made of its six fields, the markers read back from their places. -/
theorem packAssemblesTheValue : Obligations.PackAssemblesTheValue := by
  refine ⟨fun _ _ => rfl, fun s => ?_⟩
  obtain ⟨hversion, hvariant⟩ := (markersOk_iff _).mp (markersOk_packHalves (s.l, s.r))
  refine ⟨packHalves (s.l, s.r), ?_, hversion, hvariant, exec_of_done .pack (microPack_eq s)⟩
  have hright : s.r.extractLsb 60 0 = s.r := BitVec.extractLsb'_eq_self
  rw [packHalves_eq_fields, valueOfFields, VERSION, VARIANT, hright]

/-! ## FMT (rule R104) -/

/-- The code of a digit's character: `0` to `9` from `0x30` on, `a` to `f` from `0x61` on (rule R58). -/
theorem hexchar_toNat (n : Nibble) :
    (hexchar n).toNat = if n.toNat < 10 then 0x30 + n.toNat else 0x61 + (n.toNat - 10) := by
  revert n; decide

theorem exec_fmt (s : State) : exec .fmt s = .next { s with txt := fmtValue s.val, rsp := 0 } :=
  (exec_of_done .fmt (microFmt_eq s)).trans (by simp only [State.withTxt])

/-- Settles O30: a hyphen at each hyphen's offset, and at `pos(j)` the character of digit `j`. -/
theorem fmtRendersTheValue : Obligations.FmtRendersTheValue := by
  refine ⟨fun _ _ => rfl, fun s => ⟨fmtValue s.val, exec_fmt s, ?_, fun j => ?_⟩⟩
  · exact ⟨fmtValue_hyphen s.val (k := 8) rfl, fmtValue_hyphen s.val (k := 13) rfl,
      fmtValue_hyphen s.val (k := 18) rfl, fmtValue_hyphen s.val (k := 23) rfl⟩
  · rw [fmtValue_pos, hexchar_toNat, digit_toNat_pow s.val j.isLt]

end Sys2Proof.Machine
end

section
/-!
SUPPORT. The inverse commands (rules R110 to R114): the whole next state of each, from the law of its micro-command, and
the two rounds one after the other (rule R113's corner case).
-/
namespace Sys2Proof.Machine

/-! ## UNROUND (rule R113) -/

theorem feistelUnround_eq (rc : RoundConstants) (r : BitVec 3) (lr : Half × Half) :
    feistelUnround rc r lr = (lr.2 ^^^ F rc lr.1 r, lr.1) := by
  rw [feistelUnround, mask61_self]

theorem exec_unround_of_illegal {s : State} (h : s.rnd = 0 ∨ 4 < s.rnd.toNat) :
    exec .unround s = .next { s with err := if s.err = 0 then 3 else s.err, rsp := 3 } :=
  exec_of_raise .unround (by decide) (microUnround_of_illegal h)

theorem exec_unround_of_legal {s : State} (h0 : s.rnd ≠ 0) (h4 : s.rnd.toNat ≤ 4) : exec .unround s =
    .next { s.withBlock (feistelUnround Config.roundConstants (s.rnd - 1) (s.l, s.r)) (s.rnd - 1) with rsp := 0 } :=
  exec_of_done .unround (microUnround_of_legal h0 h4)

/-- Settles O34: refused at 0 and above 4, else one round of `feistelUnround` under the round count less one. -/
theorem unroundUndoesOneRound : Obligations.UnroundUndoesOneRound := by
  refine ⟨fun _ _ => rfl, fun s => ?_⟩
  split
  case isTrue h => exact exec_unround_of_illegal (h.imp_left BitVec.eq_of_toNat_eq)
  case isFalse h =>
    have h0 : s.rnd ≠ 0 := by bv_omega
    have h4 : s.rnd.toNat ≤ 4 := by omega
    have hcount : s.rnd - 1 = BitVec.ofNat 3 (s.rnd.toNat - 1) := by bv_omega
    rw [exec_unround_of_legal h0 h4, feistelUnround_eq, hcount, State.withBlock]

/-! ## ROUND and UNROUND in turn (rule R113's corner case) -/

theorem exec_round_of_lt {s : State} (h : s.rnd.toNat < 4) : exec .round s =
    .next { s.withBlock (feistelRound Config.roundConstants s.rnd (s.l, s.r)) (s.rnd + 1) with rsp := 0 } :=
  exec_of_done .round (microRound_of_lt h)

/-- Settles O36: the round count steps up and down by one, so the second command uses the constant of the first, and
the two rounds undo each other (rule R85). -/
theorem roundAndUnroundRestoreTheBlock : Obligations.RoundAndUnroundRestoreTheBlock := by
  refine fun s => ⟨fun hlt => ⟨_, exec_round_of_lt hlt, ?_⟩, fun h1 h4 => ?_⟩
  · have h0 : s.rnd + 1 ≠ 0 := by bv_omega
    have h4 : (s.rnd + 1).toNat ≤ 4 := by bv_omega
    rw [exec_unround_of_legal h0 h4]
    simp only [State.withBlock, Prod.mk.eta, feistelUnround_feistelRound, BitVec.add_sub_cancel]
  · have h0 : s.rnd ≠ 0 := by bv_omega
    have hlt : (s.rnd - 1).toNat < 4 := by bv_omega
    refine ⟨_, exec_unround_of_legal h0 h4, ?_⟩
    rw [exec_round_of_lt hlt]
    simp only [State.withBlock, Prod.mk.eta, feistelRound_feistelUnround, BitVec.sub_add_cancel]

/-! ## EXTRACT (rule R112) -/

theorem exec_extract_of_bad {s : State} (h : markersOk s.val = false) :
    exec .extract s = .next { s with err := if s.err = 0 then 2 else s.err, rsp := 2 } :=
  exec_of_raise .extract (by decide) (microExtract_of_bad h)

theorem exec_extract_of_ok {s : State} (h : markersOk s.val = true) :
    exec .extract s = .next { s.withBlock (extractHalves s.val) 4 with rsp := 0 } :=
  exec_of_done .extract (microExtract_of_ok h)

/-- Settles O33: the two markers at their places, and the halves by their fields. -/
theorem extractChecksAndTakesTheHalves : Obligations.ExtractChecksAndTakesTheHalves := by
  refine ⟨fun _ _ => rfl, fun s => ?_⟩
  have hmarkers := markersOk_iff s.val
  split
  case isTrue h =>
    rw [exec_extract_of_ok (hmarkers.mpr h), extractHalves_eq_fields]
    rfl
  case isFalse h => exact exec_extract_of_bad (Bool.eq_false_iff.mpr (mt hmarkers.mp h))

/-! ## PARSE (rule R111) -/

theorem exec_parse_of_not_hexWithHyphens {s : State} (h : ¬ HexWithHyphens s.txt) :
    exec .parse s = .next { s with err := if s.err = 0 then 2 else s.err, rsp := 2 } := by
  have hnone : parseText s.txt = none := Option.not_isSome_iff_eq_none.mp (mt (parseText_isSome s.txt).mp h)
  exact exec_of_raise .parse (by decide) (microParse_of_none hnone)

/-- Both branches of rule R84's `hexval`: `0` to `9`, and `a` to `f`. -/
theorem hexDigitNat_of_hexval {c : Byte} {n : Nibble} (h : hexval c = some n) : hexDigitNat c = n.toNat := by
  rw [hexval] at h
  split at h
  next hdecimal =>
    cases h
    rw [hexDigitNat, if_pos hdecimal.2, BitVec.toNat_ofNat]
    omega
  next =>
    split at h
    next hletter =>
      cases h
      rw [hexDigitNat, if_neg (by omega), BitVec.toNat_ofNat]
      omega
    next => cases h

/-- Settles O32: the texts that parse are the hex-with-hyphens ones, and the value has the digits they spell. -/
theorem parseReadsTheValue : Obligations.ParseReadsTheValue := by
  refine ⟨fun _ _ => rfl, fun s => ⟨exec_parse_of_not_hexWithHyphens, fun h => ?_⟩⟩
  obtain ⟨v, hv⟩ := Option.isSome_iff_exists.mp ((parseText_isSome s.txt).mpr h)
  refine ⟨v, exec_of_done .parse (microParse_of_some hv), fun j => ?_⟩
  rw [hexDigitNat_of_hexval (hexval_pos_of_parseText hv j), digit_toNat_pow v j.isLt]

/-! ## JOIN (rule R114) -/

/-- Rule R78 by fields: six zero bits, the left half, the right half. -/
theorem joinHalves_eq_fields (lr : Half × Half) : joinHalves lr = 0#6 ++ lr.1 ++ lr.2 := by
  apply BitVec.eq_of_toNat_eq
  rw [joinHalves_toNat, BitVec.toNat_append, BitVec.toNat_append, ← Nat.shiftLeft_add_eq_or_of_lt lr.2.isLt]
  simp [Nat.shiftLeft_eq]

/-- Settles O35: JOIN always completes. -/
theorem joinAssemblesTheIndex : Obligations.JoinAssemblesTheIndex := by
  refine ⟨fun _ _ => rfl, fun s => ?_⟩
  rw [exec_of_done .join (microJoin_eq s), joinHalves_eq_fields, State.withIdx]

/-! ## From reset (rule R26's notes) -/

/-- A text of zero bytes has no hyphens. -/
theorem not_hexWithHyphens_reset : ¬ HexWithHyphens State.reset.txt :=
  fun ⟨⟨h8, _⟩, _⟩ => absurd h8 (by decide)

/-- Settles O16: at reset the markers are 0, the text has no hyphens and no round stands applied. -/
theorem checkingCommandsRaiseFromReset : Obligations.CheckingCommandsRaiseFromReset :=
  ⟨exec_extract_of_bad (by decide), exec_parse_of_not_hexWithHyphens not_hexWithHyphens_reset,
    exec_unround_of_illegal (.inl rfl)⟩

/-! ## LDTXT (rule R110) -/

/-- Byte `k` of the text on the port is the one rule R34 places there. -/
theorem textOfPort_get (w : BitVec 288) (k : Fin 36) : (textOfPort w)[k] = w.extractLsb' (280 - 8 * k.val) 8 := by
  simp [textOfPort, portByte]

/-- Settles O31: LDTXT always completes. -/
theorem ldtxtLoadsTheText : Obligations.LdtxtLoadsTheText :=
  ⟨fun _ w => ⟨textOfPort w, rfl, textOfPort_get w⟩, fun t s => exec_of_done (.ldtxt t) (microLdtxt_eq t s)⟩

end Sys2Proof.Machine
end

section
/-!
SUPPORT. The identifier strings (rule R59) are the texts of the values with right markers: the version digit stands at
`pos(12)` and the variant in the top bits of the digit at `pos(16)`.
-/
namespace Sys2Proof.Machine

-- Proofs are checked in turn here, after all the earlier ones: with every proof of the joined text pending at once, its
-- compile can exceed the check's memory limit.
set_option Elab.async false

theorem hexchar_eq_four_iff (n : Nibble) : hexchar n = 0x34#8 ↔ n = VERSION := by revert n; decide

/-- The digits `8 9 a b` are those whose top two bits are the variant marker. -/
theorem hexchar_variant_iff (n : Nibble) :
    (hexchar n = 0x38#8 ∨ hexchar n = 0x39#8 ∨ hexchar n = 0x61#8 ∨ hexchar n = 0x62#8) ↔
      n.extractLsb 3 2 = VARIANT := by
  revert n; decide

theorem digit_twelve (v : Value) : digit v 12 = valueVersion v := rfl

theorem digit_sixteen_top (v : Value) : (digit v 16).extractLsb 3 2 = valueVariant v := by
  apply BitVec.eq_of_toNat_eq
  simp only [digit, valueVariant, BitVec.extractLsb_toNat, BitVec.extractLsb'_toNat, Nat.shiftRight_eq_div_pow]
  omega

theorem hexWithHyphens_fmtValue (v : Value) : HexWithHyphens (fmtValue v) :=
  (textOk_iff_hexWithHyphens _).mp (textOk_fmtValue v)

theorem isIdentifier_fmtValue (v : Value) : IsIdentifier (fmtValue v) ↔ markersOk v = true := by
  have hversion : (fmtValue v)[14] = hexchar (digit v 12) := fmtValue_pos v 12
  have hvariant : (fmtValue v)[19] = hexchar (digit v 16) := fmtValue_pos v 16
  rw [IsIdentifier, hversion, hvariant, hexchar_eq_four_iff, hexchar_variant_iff, digit_twelve, digit_sixteen_top,
    markersOk_iff]
  exact and_iff_right (hexWithHyphens_fmtValue v)

theorem isIdentifier_of_parseText {u : Text} {v : Value} (h : parseText u = some v) :
    IsIdentifier u ↔ markersOk v = true := by
  rw [← fmtValue_of_parseText h, isIdentifier_fmtValue]

theorem isIdentifier_iff_parseText (u : Text) :
    IsIdentifier u ↔ ∃ v, parseText u = some v ∧ markersOk v = true := by
  refine ⟨fun h => ?_, fun ⟨v, hv, hm⟩ => (isIdentifier_of_parseText hv).mpr hm⟩
  obtain ⟨v, hv⟩ := Option.isSome_iff_exists.mp ((parseText_isSome u).mpr h.1)
  exact ⟨v, hv, (isIdentifier_of_parseText hv).mp h⟩

end Sys2Proof.Machine
end

section
/-!
SUPPORT. What ENC and DEC compute (rules R120, R121, R123, R124): a bijection between the legal indices and the values
with right markers, and the whole next state of either command under every table.
-/
namespace Sys2Proof.Machine

/-! ## The value of an index and the index of a value -/

/-- The identifier value of an index: what ENC leaves in `VAL` (rule R120). -/
def valueOfIndex (rc : RoundConstants) (x : Index) : Value := packHalves (permute rc (splitIndex x))

/-- The index of an identifier value: what DEC leaves in `IDX` (rule R121). -/
def indexOfValue (rc : RoundConstants) (v : Value) : Index := joinHalves (unpermute rc (extractHalves v))

theorem markersOk_valueOfIndex (rc : RoundConstants) (x : Index) : markersOk (valueOfIndex rc x) = true :=
  markersOk_packHalves _

theorem indexOfValue_lt (rc : RoundConstants) (v : Value) : (indexOfValue rc v).toNat < 2 ^ 122 := joinHalves_lt _

/-- Rules R85 to R87, one inside the other. -/
theorem indexOfValue_valueOfIndex (rc : RoundConstants) {x : Index} (h : x.toNat < 2 ^ 122) :
    indexOfValue rc (valueOfIndex rc x) = x := by
  rw [indexOfValue, valueOfIndex, extractHalves_packHalves, unpermute_permute, joinHalves_splitIndex h]

theorem valueOfIndex_indexOfValue (rc : RoundConstants) {v : Value} (h : markersOk v = true) :
    valueOfIndex rc (indexOfValue rc v) = v := by
  rw [indexOfValue, valueOfIndex, splitIndex_joinHalves, permute_unpermute, packHalves_extractHalves h]

theorem fmtValue_injective : Function.Injective fmtValue := fun v w h => by
  rw [← Option.some_inj, ← parseText_fmtValue v, ← parseText_fmtValue w, h]

/-! ## ENC (rule R120) -/

theorem inDomain_eq_false {x : Index} (h : 2 ^ 122 ≤ x.toNat) : inDomain x = false := by
  rwa [← Bool.not_eq_true, inDomain_iff, not_lt]

/-- ENC of a legal index, the whole next state. -/
theorem after_enc_of_lt {x : Index} (h : x.toNat < 2 ^ 122) (rc : RoundConstants) (s : State) :
    after rc (.enc x) s = { s with
      idx := x, l := (permute rc (splitIndex x)).1, r := (permute rc (splitIndex x)).2, rnd := 4
      val := valueOfIndex rc x, txt := fmtValue (valueOfIndex rc x), rsp := 0 } := by
  rw [after, engine, microEnc_of_lt ((inDomain_iff x).mpr h), done_fst, done_snd, State.complete_ok]
  simp only [State.withIdx, State.withBlock, State.withVal, State.withTxt, valueOfIndex]

/-- ENC of an index outside the domain, the whole next state. -/
theorem after_enc_of_ge {x : Index} (h : 2 ^ 122 ≤ x.toNat) (rc : RoundConstants) (s : State) :
    after rc (.enc x) s = { s with idx := x, err := if s.err = 0 then 1 else s.err, rsp := 1 } := by
  rw [after, engine, microEnc_of_ge (inDomain_eq_false h), raise_fst, raise_snd, State.complete_raise _ (by decide)]
  rfl

/-! ## DEC (rule R121) -/

/-- DEC of a text that does not parse, the whole next state. -/
theorem after_dec_of_none {u : Text} (h : parseText u = none) (rc : RoundConstants) (s : State) :
    after rc (.dec u) s = { s with txt := u, err := if s.err = 0 then 2 else s.err, rsp := 2 } := by
  rw [after, engine, microDec_of_none h, raise_fst, raise_snd, State.complete_raise _ (by decide)]
  rfl

/-- DEC of a text whose value has a wrong marker, the whole next state. -/
theorem after_dec_of_bad {u : Text} {v : Value} (h : parseText u = some v) (hm : markersOk v = false)
    (rc : RoundConstants) (s : State) :
    after rc (.dec u) s = { s with txt := u, val := v, err := if s.err = 0 then 2 else s.err, rsp := 2 } := by
  rw [after, engine, microDec_of_bad h hm, raise_fst, raise_snd, State.complete_raise _ (by decide)]
  rfl

/-- DEC of an identifier, the whole next state. -/
theorem after_dec_of_ok {u : Text} {v : Value} (h : parseText u = some v) (hm : markersOk v = true)
    (rc : RoundConstants) (s : State) :
    after rc (.dec u) s = { s with
      txt := u, val := v, l := (unpermute rc (extractHalves v)).1, r := (unpermute rc (extractHalves v)).2, rnd := 0
      idx := indexOfValue rc v, rsp := 0 } := by
  rw [after, engine, microDec_of_ok h hm, done_fst, done_snd, State.complete_ok]
  simp only [State.withIdx, State.withBlock, State.withVal, State.withTxt, indexOfValue]

theorem after_dec_rsp_of_not_isIdentifier {u : Text} (h : ¬ IsIdentifier u) (rc : RoundConstants) (s : State) :
    (after rc (.dec u) s).rsp = 2 := by
  cases hp : parseText u with
  | none => rw [after_dec_of_none hp]
  | some v =>
    rw [isIdentifier_of_parseText hp, Bool.not_eq_true] at h
    rw [after_dec_of_bad hp h]

/-! ## The closed forms (rules R123, R124) -/

theorem encIndex_of_lt {x : Index} (h : x.toNat < 2 ^ 122) (rc : RoundConstants) :
    encIndex rc x = .ok (fmtValue (valueOfIndex rc x)) := by
  rw [encIndex, if_pos ((inDomain_iff x).mpr h), valueOfIndex]

theorem encIndex_of_ge {x : Index} (h : 2 ^ 122 ≤ x.toNat) (rc : RoundConstants) :
    encIndex rc x = .error .outOfRange := by
  rw [encIndex, inDomain_eq_false h, if_neg Bool.false_ne_true]

theorem decText_of_ok {u : Text} {v : Value} (h : parseText u = some v) (hm : markersOk v = true)
    (rc : RoundConstants) : decText rc u = .ok (indexOfValue rc v) := by
  simp only [decText, h, hm, if_true, indexOfValue]

theorem decText_of_not_isIdentifier {u : Text} (h : ¬ IsIdentifier u) (rc : RoundConstants) :
    decText rc u = .error .invalidFormat := by
  cases hp : parseText u with
  | none => simp only [decText, hp]
  | some v =>
    rw [isIdentifier_of_parseText hp] at h
    simp only [decText, hp, if_neg h]

end Sys2Proof.Machine
end

section
/-!
SUPPORT. The statements on ENC and DEC (rules R120, R121, R123 to R129), from the whole next states.
-/
namespace Sys2Proof.Machine

/-- Settles O37: the two sides of `2^122`. -/
theorem encMapsIndexToIdentifier : Obligations.EncMapsIndexToIdentifier := by
  refine ⟨fun _ _ => rfl, fun x s => ?_⟩
  rw [exec_eq_after]
  split
  case isTrue h => rw [after_enc_of_ge h]
  case isFalse h => rw [after_enc_of_lt (not_le.mp h), valueOfIndex]

/-- Settles O38: PARSE raises, EXTRACT raises, or every stage completes. -/
theorem decMapsIdentifierToIndex : Obligations.DecMapsIdentifierToIndex := by
  refine ⟨fun _ w => ⟨textOfPort w, rfl, textOfPort_get w⟩, fun u s => ?_⟩
  rw [exec_eq_after]
  refine ⟨fun h => ?_, fun v h => ⟨fun hm => ?_, fun hm => ?_⟩⟩
  · rw [after_dec_of_none h]
  · rw [after_dec_of_bad h hm]
  · rw [after_dec_of_ok h hm, indexOfValue]

/-- Settles O40: in each case of the closed form neither result names the state before. -/
theorem macroResultsIgnoreThePriorState : Obligations.MacroResultsIgnoreThePriorState := by
  refine ⟨fun x s s' => ⟨_, _, exec_eq_after _ s, exec_eq_after _ s', ?_⟩,
    fun u s s' => ⟨_, _, exec_eq_after _ s, exec_eq_after _ s', ?_⟩⟩
  · rcases Nat.lt_or_ge x.toNat (2 ^ 122) with h | h
    · rw [encIndex_of_lt h, after_enc_of_lt h, after_enc_of_lt h]
      exact ⟨rfl, rfl, rfl, rfl⟩
    · rw [encIndex_of_ge h, after_enc_of_ge h, after_enc_of_ge h]
      exact ⟨rfl, rfl, rfl⟩
  · by_cases h : IsIdentifier u
    · obtain ⟨v, hv, hm⟩ := (isIdentifier_iff_parseText u).mp h
      rw [decText_of_ok hv hm, after_dec_of_ok hv hm, after_dec_of_ok hv hm]
      exact ⟨rfl, rfl, rfl, rfl⟩
    · rw [decText_of_not_isIdentifier h, after_dec_rsp_of_not_isIdentifier h, after_dec_rsp_of_not_isIdentifier h]
      exact ⟨rfl, rfl, rfl⟩

/-- Settles O42: the packed value has right markers under every table. -/
theorem encProducesIdentifiers : Obligations.EncProducesIdentifiers := by
  intro rc x s h
  rw [after_enc_of_lt h]
  exact ⟨rfl, (isIdentifier_fmtValue _).mpr (markersOk_valueOfIndex rc x)⟩

/-- Settles O43: the value of an index can be taken back, and every identifier spells a value with right markers. -/
theorem encIsABijectionOntoIdentifiers : Obligations.EncIsABijectionOntoIdentifiers := by
  refine fun rc s => ⟨fun x h => (encProducesIdentifiers rc x s h).2, fun x y hx hy hxy => ?_, fun u hu => ?_⟩
  · rw [after_enc_of_lt hx, after_enc_of_lt hy] at hxy
    rw [← indexOfValue_valueOfIndex rc hx, fmtValue_injective hxy, indexOfValue_valueOfIndex rc hy]
  · obtain ⟨v, hv, hm⟩ := (isIdentifier_iff_parseText u).mp hu
    refine ⟨indexOfValue rc v, indexOfValue_lt rc v, ?_⟩
    rw [after_enc_of_lt (indexOfValue_lt rc v), valueOfIndex_indexOfValue rc hm, fmtValue_of_parseText hv]

/-- Settles O44: index and value determine each other, and so do value and string. -/
theorem macroRoundTrip : Obligations.MacroRoundTrip := by
  refine ⟨fun x s h => ⟨_, _, exec_eq_after _ s, exec_eq_after _ _, ?_⟩,
    fun u s => ⟨_, _, exec_eq_after _ s, exec_eq_after _ _, fun hok => ?_⟩⟩
  · rw [after_enc_of_lt h, after_dec_of_ok (parseText_fmtValue _) (markersOk_valueOfIndex _ x)]
    exact ⟨rfl, rfl, indexOfValue_valueOfIndex _ h, rfl⟩
  · by_cases hu : IsIdentifier u
    · obtain ⟨v, hv, hm⟩ := (isIdentifier_iff_parseText u).mp hu
      rw [after_dec_of_ok hv hm, after_enc_of_lt (indexOfValue_lt _ v), valueOfIndex_indexOfValue _ hm]
      exact ⟨rfl, fmtValue_of_parseText hv, rfl⟩
    · rw [after_dec_rsp_of_not_isIdentifier hu] at hok
      exact absurd hok (by decide)

/-- Settles O45: the identifiers are the texts on which every stage completes. -/
theorem decAcceptsExactlyIdentifiers : Obligations.DecAcceptsExactlyIdentifiers := by
  refine fun u s => ⟨_, exec_eq_after _ s, ?_⟩
  by_cases hu : IsIdentifier u
  · obtain ⟨v, hv, hm⟩ := (isIdentifier_iff_parseText u).mp hu
    rw [after_dec_of_ok hv hm]
    exact ⟨iff_of_true rfl hu, iff_of_false (by simp) (not_not.mpr hu)⟩
  · rw [after_dec_rsp_of_not_isIdentifier hu]
    exact ⟨iff_of_false (by decide) hu, iff_of_true rfl hu⟩

/-- Settles O41: both ends of the domain are legal, the next index and the last one on the port are not. -/
theorem boundaryIndices : Obligations.BoundaryIndices := by
  intro s
  have legal (x : Index) (h : x.toNat < 2 ^ 122) : ∃ t, exec (.enc x) s = .next t ∧ t.rsp = 0 ∧ IsIdentifier t.txt :=
    ⟨_, exec_eq_after _ s, encProducesIdentifiers _ x s h⟩
  have illegal (x : Index) (h : 2 ^ 122 ≤ x.toNat) : ∃ t, exec (.enc x) s = .next t ∧ t.rsp = 1 :=
    ⟨_, exec_eq_after _ s, by rw [after_enc_of_ge h]⟩
  exact ⟨legal _ (by decide), legal _ (by decide), illegal _ (by decide), illegal _ (by decide)⟩

end Sys2Proof.Machine
end

section
/-!
SUPPORT. ENC and DEC against their micro-commands issued one by one (rule R122): between two micro-commands the host
sees a response, which no stage reads.
-/
namespace Sys2Proof.Machine

/-! ## No stage reads the response -/

/-- From the state a completed command left, `m` writes and answers what it does from the state before that
response. -/
def IgnoresResponse (m : Micro) : Prop := ∀ s : State, m (s.complete .ok) = ((m s).1.complete .ok, (m s).2)

theorem microLdidx_ignoresResponse (x : Index) : IgnoresResponse (microLdidx x) := fun _ => rfl

theorem microLdtxt_ignoresResponse (u : Text) : IgnoresResponse (microLdtxt u) := fun _ => rfl

theorem microSplit_ignoresResponse : IgnoresResponse microSplit := fun s => by
  cases hd : inDomain s.idx with
  | true => rw [microSplit_of_lt hd, microSplit_of_lt (by simpa using hd)]; rfl
  | false => rw [microSplit_of_ge hd, microSplit_of_ge (by simpa using hd)]; rfl

theorem microRound_ignoresResponse (rc : RoundConstants) : IgnoresResponse (microRound rc) := fun s => by
  rcases Nat.lt_or_ge s.rnd.toNat 4 with hr | hr
  · rw [microRound_of_lt hr, microRound_of_lt (by simpa using hr)]; rfl
  · rw [microRound_of_ge hr, microRound_of_ge (by simpa using hr)]; rfl

theorem microUnround_ignoresResponse (rc : RoundConstants) : IgnoresResponse (microUnround rc) := fun s => by
  by_cases hr : s.rnd = 0 ∨ 4 < s.rnd.toNat
  · rw [microUnround_of_illegal hr, microUnround_of_illegal (by simpa using hr)]; rfl
  · rw [not_or, not_lt] at hr
    obtain ⟨h0, h4⟩ := hr
    rw [microUnround_of_legal h0 h4, microUnround_of_legal (by simpa using h0) (by simpa using h4)]; rfl

theorem microPack_ignoresResponse : IgnoresResponse microPack := fun _ => rfl

theorem State.complete_ok_withTxt (s : State) (u : Text) : (s.complete .ok).withTxt u = (s.withTxt u).complete .ok := rfl

theorem microFmt_ignoresResponse : IgnoresResponse microFmt := fun s => by
  rw [microFmt_eq, microFmt_eq, State.complete_val, State.complete_ok_withTxt, done, done]

theorem microParse_ignoresResponse : IgnoresResponse microParse := fun s => by
  cases hp : parseText s.txt with
  | none => rw [microParse_of_none hp, microParse_of_none (by simpa using hp)]; rfl
  | some v => rw [microParse_of_some hp, microParse_of_some (by simpa using hp)]; rfl

theorem microExtract_ignoresResponse : IgnoresResponse microExtract := fun s => by
  cases hm : markersOk s.val with
  | true => rw [microExtract_of_ok hm, microExtract_of_ok (by simpa using hm)]; rfl
  | false => rw [microExtract_of_bad hm, microExtract_of_bad (by simpa using hm)]; rfl

theorem microJoin_ignoresResponse : IgnoresResponse microJoin := fun _ => rfl

/-! ## One by one, and in one sequence -/

theorem State.complete_ok_complete (s : State) (st : Status) : (s.complete .ok).complete st = s.complete st := by
  simp only [State.complete, stickyErr_ok]

theorem after_complete_ok {rc : RoundConstants} {i : Instr} (h : IgnoresResponse (engine rc i)) (s : State) :
    after rc i (s.complete .ok) = after rc i s := by
  rw [after, after, h, State.complete_ok_complete]

theorem issueUntilError_complete_ok {i : Instr} (h : IgnoresResponse (engine Config.roundConstants i)) (is : List Instr)
    (s : State) : issueUntilError (i :: is) (s.complete .ok) = issueUntilError (i :: is) s := by
  rw [issueUntilError, issueUntilError, exec_eq_after, exec_eq_after, after_complete_ok h]

/-- A command that completes hands on the state it left, the response updated. -/
theorem issueUntilError_cons_ok {i : Instr} {is : List Instr} {s : State}
    (h : (engine Config.roundConstants i s).2 = .ok) :
    issueUntilError (i :: is) s = issueUntilError is ((engine Config.roundConstants i s).1.complete .ok) := by
  have hrsp : (after Config.roundConstants i s).rsp = 0 := by rw [after_rsp, h, Status.code_ok]
  simp only [issueUntilError, exec_eq_after, if_pos hrsp]
  rw [after, h]

/-- A command that raises ends the list. -/
theorem issueUntilError_cons_raise {i : Instr} {is : List Instr} {s : State}
    (h : (engine Config.roundConstants i s).2 ≠ .ok) :
    issueUntilError (i :: is) s = respond (engine Config.roundConstants i s) := by
  have hrsp : (after Config.roundConstants i s).rsp ≠ 0 := by rwa [after_rsp, ne_eq, Status.code_eq_zero]
  simp only [issueUntilError, exec_eq_after, if_neg hrsp]
  rw [after, respond]

/-- Commands issued one by one end as their stages do in one sequence, after a completed command. -/
theorem issueUntilError_eq_runSeq {is : List Instr} (h : ∀ i ∈ is, IgnoresResponse (engine Config.roundConstants i))
    (s : State) :
    issueUntilError is (s.complete .ok) = respond (runSeq (is.map (engine Config.roundConstants)) s) := by
  induction is generalizing s with
  | nil => rw [issueUntilError, List.map_nil, runSeq_nil, respond, done_fst, done_snd]
  | cons i is ih =>
    obtain ⟨hi, his⟩ := List.forall_mem_cons.mp h
    rw [issueUntilError_complete_ok hi, List.map_cons]
    by_cases hk : (engine Config.roundConstants i s).2 = .ok
    · rw [issueUntilError_cons_ok hk, ih his, runSeq_cons_ok hk]
    · rw [issueUntilError_cons_raise hk, runSeq_cons_raise hk]

/-- The same from any state, for a list that is not empty. -/
theorem issueUntilError_cons_eq_runSeq {i : Instr} {is : List Instr}
    (h : ∀ j ∈ i :: is, IgnoresResponse (engine Config.roundConstants j)) (s : State) :
    issueUntilError (i :: is) s = respond (runSeq ((i :: is).map (engine Config.roundConstants)) s) := by
  rw [← issueUntilError_complete_ok (h i List.mem_cons_self), issueUntilError_eq_runSeq h]

/-- Settles O39: ENC and DEC are the sequences of these stages, none of which reads a response. -/
theorem macroEqualsItsMicroCommands : Obligations.MacroEqualsItsMicroCommands := by
  refine ⟨fun x s => ?_, fun u s => ?_⟩
  · rw [issueUntilError_cons_eq_runSeq]
    · rfl
    · simp only [List.forall_mem_cons]
      exact ⟨microLdidx_ignoresResponse x, microSplit_ignoresResponse, microRound_ignoresResponse _,
        microRound_ignoresResponse _, microRound_ignoresResponse _, microRound_ignoresResponse _,
        microPack_ignoresResponse, microFmt_ignoresResponse, List.forall_mem_nil _⟩
  · rw [issueUntilError_cons_eq_runSeq]
    · rfl
    · simp only [List.forall_mem_cons]
      exact ⟨microLdtxt_ignoresResponse u, microParse_ignoresResponse, microExtract_ignoresResponse,
        microUnround_ignoresResponse _, microUnround_ignoresResponse _, microUnround_ignoresResponse _,
        microUnround_ignoresResponse _, microJoin_ignoresResponse, List.forall_mem_nil _⟩

end Sys2Proof.Machine
end

section
/-!
SUPPORT. The control commands (rules R140 to R142): NOP and CLR complete from every state, the reserved opcodes raise
from every state, and no command but CLR writes an `ERR` that is not 0.
-/
namespace Sys2Proof.Machine

/-- Settles O46: NOP always completes, having written nothing. -/
theorem nopChangesNoRegister : Obligations.NopChangesNoRegister :=
  ⟨fun _ _ => rfl, fun s => exec_of_done .nop (microNop_eq s)⟩

theorem exec_clr (s : State) : exec .clr s = .next { s.cleared with rsp := 0 } := exec_of_done .clr (microClr_eq s)

/-- A status other than 0 stays in `ERR` whatever a command ends with (rule R155). -/
theorem stickyErr_of_ne_zero {e : BitVec 2} (h : e ≠ 0) (st : Status) : stickyErr e st = e := by
  by_contra hne
  exact h (stickyErr_ne_self hne).1

/-- No command but CLR clears `ERR` (rule R141). -/
theorem after_err_of_ne_zero {i : Instr} (hclr : i ≠ .clr) {s : State} (he : s.err ≠ 0) (rc : RoundConstants) :
    (after rc i s).err = s.err := by
  rw [after_err_of_ne_clr hclr, stickyErr_of_ne_zero he]

/-- Settles O47: CLR leaves `State.cleared`, and any other command keeps an `ERR` that is not 0. -/
theorem clrReachesTheResetState : Obligations.ClrReachesTheResetState := by
  refine ⟨fun _ _ => rfl, fun s => ⟨_, exec_clr s, rfl, ⟨rfl, rfl, rfl, rfl, rfl, rfl, rfl⟩, fun i hclr => ?_⟩⟩
  exact ⟨_, exec_eq_after i s, fun he => after_err_of_ne_zero hclr he _⟩

/-- Settles O49: both opcodes raise IllegalCommand without a condition. -/
theorem reservedOpcodesRaise : Obligations.ReservedOpcodesRaise :=
  ⟨fun _ _ => ⟨rfl, rfl⟩, fun s => ⟨exec_of_raise .reservedE (by decide) (microReservedE_eq s),
    exec_of_raise .reservedF (by decide) (microReservedF_eq s)⟩⟩

end Sys2Proof.Machine
end

section
/-!
SUPPORT. `ERR` is written and not read (rules R20, R155): no stage looks at it, so a command other than CLR does the same
from any `ERR`, and hands on the one it was given to the sticky rule.
-/
namespace Sys2Proof.Machine

/-! ## No stage reads `ERR` -/

/-- From a state with another `ERR`, `m` writes and answers the same, and leaves that `ERR` as it was. -/
def IgnoresErr (m : Micro) : Prop :=
  ∀ (s : State) (e : BitVec 2), m { s with err := e } = ({ (m s).1 with err := e }, (m s).2)

theorem microSplit_ignoresErr : IgnoresErr microSplit := fun s e => by
  cases hd : inDomain s.idx with
  | true => rw [microSplit_of_lt hd, microSplit_of_lt (s := { s with err := e }) hd]; rfl
  | false => rw [microSplit_of_ge hd, microSplit_of_ge (s := { s with err := e }) hd]; rfl

theorem microRound_ignoresErr (rc : RoundConstants) : IgnoresErr (microRound rc) := fun s e => by
  rcases Nat.lt_or_ge s.rnd.toNat 4 with hr | hr
  · rw [microRound_of_lt hr, microRound_of_lt (s := { s with err := e }) hr]; rfl
  · rw [microRound_of_ge hr, microRound_of_ge (s := { s with err := e }) hr]; rfl

theorem microUnround_ignoresErr (rc : RoundConstants) : IgnoresErr (microUnround rc) := fun s e => by
  by_cases hr : s.rnd = 0 ∨ 4 < s.rnd.toNat
  · rw [microUnround_of_illegal hr, microUnround_of_illegal (s := { s with err := e }) hr]; rfl
  · rw [not_or, not_lt] at hr
    obtain ⟨h0, h4⟩ := hr
    rw [microUnround_of_legal h0 h4, microUnround_of_legal (s := { s with err := e }) h0 h4]; rfl

theorem microParse_ignoresErr : IgnoresErr microParse := fun s e => by
  cases hp : parseText s.txt with
  | none => rw [microParse_of_none hp, microParse_of_none (s := { s with err := e }) hp]; rfl
  | some v => rw [microParse_of_some hp, microParse_of_some (s := { s with err := e }) hp]; rfl

theorem microExtract_ignoresErr : IgnoresErr microExtract := fun s e => by
  cases hm : markersOk s.val with
  | true => rw [microExtract_of_ok hm, microExtract_of_ok (s := { s with err := e }) hm]; rfl
  | false => rw [microExtract_of_bad hm, microExtract_of_bad (s := { s with err := e }) hm]; rfl

theorem microLdidx_ignoresErr (x : Index) : IgnoresErr (microLdidx x) := fun _ _ => rfl

theorem microLdtxt_ignoresErr (u : Text) : IgnoresErr (microLdtxt u) := fun _ _ => rfl

theorem microPack_ignoresErr : IgnoresErr microPack := fun _ _ => rfl

theorem microFmt_ignoresErr : IgnoresErr microFmt := fun _ _ => rfl

theorem microJoin_ignoresErr : IgnoresErr microJoin := fun _ _ => rfl

/-- A sequence looks at `ERR` only if a stage does: the stage that raises is the same one, and so is what it leaves. -/
theorem runSeq_ignoresErr (ms : List Micro) (h : ∀ m ∈ ms, IgnoresErr m) : IgnoresErr (runSeq ms) := fun s e => by
  induction ms generalizing s with
  | nil => rfl
  | cons m ms ih =>
    obtain ⟨hm, hms⟩ := List.forall_mem_cons.mp h
    have hst : (m { s with err := e }).2 = (m s).2 := by rw [hm]
    by_cases hk : (m s).2 = .ok
    · rw [runSeq_cons_ok hk, runSeq_cons_ok (hst.trans hk), hm, ih hms]
    · rw [runSeq_cons_raise hk, runSeq_cons_raise (hst ▸ hk), hm]

theorem microEnc_ignoresErr (rc : RoundConstants) (x : Index) : IgnoresErr (microEnc rc x) := by
  refine runSeq_ignoresErr (encStages rc x) ?_
  simp only [encStages, List.forall_mem_cons]
  exact ⟨microLdidx_ignoresErr x, microSplit_ignoresErr, microRound_ignoresErr rc, microRound_ignoresErr rc,
    microRound_ignoresErr rc, microRound_ignoresErr rc, microPack_ignoresErr, microFmt_ignoresErr, List.forall_mem_nil _⟩

theorem microDec_ignoresErr (rc : RoundConstants) (u : Text) : IgnoresErr (microDec rc u) := by
  refine runSeq_ignoresErr (decStages rc u) ?_
  simp only [decStages, List.forall_mem_cons]
  exact ⟨microLdtxt_ignoresErr u, microParse_ignoresErr, microExtract_ignoresErr, microUnround_ignoresErr rc,
    microUnround_ignoresErr rc, microUnround_ignoresErr rc, microUnround_ignoresErr rc, microJoin_ignoresErr,
    List.forall_mem_nil _⟩

/-- No command looks at `ERR`, and only CLR writes it as a register (rule R141). -/
theorem engine_ignoresErr {i : Instr} (hclr : i ≠ .clr) (rc : RoundConstants) : IgnoresErr (engine rc i) := by
  cases i with
  | nop | reservedE | reservedF => exact fun _ _ => rfl
  | clr => exact absurd rfl hclr
  | enc x => exact microEnc_ignoresErr rc x
  | dec u => exact microDec_ignoresErr rc u
  | ldidx x => exact microLdidx_ignoresErr x
  | ldtxt u => exact microLdtxt_ignoresErr u
  | split => exact microSplit_ignoresErr
  | round => exact microRound_ignoresErr rc
  | unround => exact microUnround_ignoresErr rc
  | pack => exact microPack_ignoresErr
  | extract => exact microExtract_ignoresErr
  | fmt => exact microFmt_ignoresErr
  | parse => exact microParse_ignoresErr
  | join => exact microJoin_ignoresErr

/-! ## The end of a command -/

/-- The sticky rule in terms of the codes: a success has the code 0 itself (rule R155). -/
theorem stickyErr_eq (e : BitVec 2) (st : Status) : stickyErr e st = if e = 0 then st.code else e := by
  by_cases hst : st = .ok
  · subst hst
    rw [stickyErr_ok, Status.code_ok]
    split_ifs with he
    exacts [he, rfl]
  · exact stickyErr_of_ne_ok e hst

/-- From another `ERR`, a command leaves a state that differs in `ERR` alone (rule R155). -/
theorem after_withErr (rc : RoundConstants) (i : Instr) (s : State) (e : BitVec 2) :
    { after rc i { s with err := e } with err := (after rc i s).err } = after rc i s := by
  by_cases hclr : i = .clr
  · subst hclr; rfl
  · rw [after, engine_ignoresErr hclr]; rfl

/-- Settles O50: `ERR` is updated by the sticky rule alone, and no stage reads it. -/
theorem errIsStickyAndNeverRead : Obligations.ErrIsStickyAndNeverRead := by
  refine fun i s e => ⟨_, _, exec_eq_after i s, exec_eq_after i _, ?_, after_withErr _ i s e⟩
  by_cases hclr : i = .clr
  · subst hclr; rfl
  · rw [if_neg hclr, after_err_of_ne_clr hclr, after_rsp, stickyErr_eq]

end Sys2Proof.Machine
end

section
/-!
SUPPORT. The block behind the rounds (rule R187, marked derived): ROUND and UNROUND move `(L, R)` and `RND` together so
that the block stays, and the commands that set a block set both. A refused command keeps it from every state.
-/
namespace Sys2Proof.Machine

/-! ## The rounds undone -/

theorem originBlock_zero (rc : RoundConstants) (lr : Half × Half) : originBlock rc 0 lr = lr := rfl

theorem originBlock_four (rc : RoundConstants) (lr : Half × Half) : originBlock rc 4 lr = unpermute rc lr := rfl

/-- A round, counted up, does not move the origin (rule R85). -/
theorem originBlock_feistelRound (rc : RoundConstants) {n : BitVec 3} (h : n.toNat < 4) (lr : Half × Half) :
    originBlock rc (n + 1).toNat (feistelRound rc n lr) = originBlock rc n.toNat lr := by
  have hcount : (n + 1).toNat = n.toNat + 1 := by bv_omega
  rw [hcount, originBlock, BitVec.ofNat_toNat, BitVec.setWidth_eq, feistelUnround_feistelRound]

/-- An inverse round, counted down, does not move the origin: it is the first one the origin undoes. -/
theorem originBlock_feistelUnround (rc : RoundConstants) {n : BitVec 3} (h : n ≠ 0) (lr : Half × Half) :
    originBlock rc (n - 1).toNat (feistelUnround rc (n - 1) lr) = originBlock rc n.toNat lr := by
  have hcount : n.toNat = (n - 1).toNat + 1 := by bv_omega
  rw [hcount, originBlock, BitVec.ofNat_toNat, BitVec.setWidth_eq]

/-! ## The block of a state -/

@[simp] theorem blockOrigin_withIdx (s : State) (x : Index) : blockOrigin (s.withIdx x) = blockOrigin s := rfl

@[simp] theorem blockOrigin_withVal (s : State) (v : Value) : blockOrigin (s.withVal v) = blockOrigin s := rfl

@[simp] theorem blockOrigin_withTxt (s : State) (u : Text) : blockOrigin (s.withTxt u) = blockOrigin s := rfl

@[simp] theorem blockOrigin_complete (s : State) (st : Status) : blockOrigin (s.complete st) = blockOrigin s := rfl

@[simp] theorem blockOrigin_withBlock (s : State) (lr : Half × Half) (n : BitVec 3) :
    blockOrigin (s.withBlock lr n) = originBlock Config.roundConstants n.toNat lr := rfl

theorem blockOrigin_cleared (s : State) : blockOrigin s.cleared = (0, 0) := rfl

theorem SameOutside.blockOrigin {ws : List Register} {s t : State} (hf : SameOutside ws s t) (hw : .block ∉ ws) :
    blockOrigin t = blockOrigin s := by
  rw [Sys2Proof.blockOrigin, Sys2Proof.blockOrigin, hf.l hw, hf.r hw, hf.rnd hw]

/-! ## The block each command leaves -/

/-- The answer `p` of a command issued in `s` has the block `lr` if it completes, and the block of `s` if it raises. -/
structure SetsOrigin (p : State × Status) (s : State) (lr : Half × Half) : Prop where
  of_ok : p.2 = .ok → blockOrigin p.1 = lr
  of_raise : p.2 ≠ .ok → blockOrigin p.1 = blockOrigin s

namespace SetsOrigin

variable {s t : State} {lr : Half × Half}

theorem done (h : blockOrigin t = lr) : SetsOrigin (done t) s lr := ⟨fun _ => h, absurd rfl⟩

theorem raise {x : Status} (hx : x ≠ .ok) (h : blockOrigin t = blockOrigin s) : SetsOrigin (raise x t) s lr :=
  ⟨fun hok => absurd hok hx, fun _ => h⟩

/-- A command that does not write the block keeps it, whatever it answers. -/
theorem of_block_not_mem {i : Instr} (hw : .block ∉ writeSet i) (s : State) :
    SetsOrigin (engine Config.roundConstants i s) s (blockOrigin s) :=
  have hkeep := (engine_sameOutside Config.roundConstants i s).blockOrigin hw
  ⟨fun _ => hkeep, fun _ => hkeep⟩

theorem microSplit (s : State) : SetsOrigin (microSplit s) s (splitIndex s.idx) := by
  cases hd : inDomain s.idx with
  | true =>
    rw [microSplit_of_lt hd]
    exact .done (originBlock_zero _ _)
  | false =>
    rw [microSplit_of_ge hd]
    exact .raise (by decide) rfl

theorem microRound (s : State) : SetsOrigin (microRound Config.roundConstants s) s (blockOrigin s) := by
  rcases Nat.lt_or_ge s.rnd.toNat 4 with hr | hr
  · rw [microRound_of_lt hr]
    refine .done ?_
    rw [blockOrigin_withBlock, originBlock_feistelRound _ hr, blockOrigin]
  · rw [microRound_of_ge hr]
    exact .raise (by decide) rfl

theorem microUnround (s : State) : SetsOrigin (microUnround Config.roundConstants s) s (blockOrigin s) := by
  by_cases hr : s.rnd = 0 ∨ 4 < s.rnd.toNat
  · rw [microUnround_of_illegal hr]
    exact .raise (by decide) rfl
  · rw [not_or, not_lt] at hr
    obtain ⟨h0, h4⟩ := hr
    rw [microUnround_of_legal h0 h4]
    refine .done ?_
    rw [blockOrigin_withBlock, originBlock_feistelUnround _ h0, blockOrigin]

theorem microExtract (s : State) :
    SetsOrigin (microExtract s) s (unpermute Config.roundConstants (extractHalves s.val)) := by
  cases hm : markersOk s.val with
  | true =>
    rw [microExtract_of_ok hm]
    exact .done (originBlock_four _ _)
  | false =>
    rw [microExtract_of_bad hm]
    exact .raise (by decide) rfl

/-- ENC leaves four rounds of the split index, which the origin undoes (rule R120). -/
theorem microEnc (x : Index) (s : State) :
    SetsOrigin (microEnc Config.roundConstants x s) s (splitIndex x) := by
  cases hd : inDomain x with
  | true =>
    rw [microEnc_of_lt hd]
    refine .done ?_
    rw [blockOrigin_withTxt, blockOrigin_withVal, blockOrigin_withBlock]
    exact (originBlock_four _ _).trans (unpermute_permute _ _)
  | false =>
    rw [microEnc_of_ge hd]
    exact .raise (by decide) (blockOrigin_withIdx s x)

/-- DEC leaves the halves that its own index joins (rule R121). -/
theorem microDec (u : Text) (s : State) :
    SetsOrigin (microDec Config.roundConstants u s) s (splitIndex (microDec Config.roundConstants u s).1.idx) := by
  cases hp : parseText u with
  | none =>
    rw [microDec_of_none hp]
    exact .raise (by decide) (blockOrigin_withTxt s u)
  | some v =>
    cases hm : markersOk v with
    | true =>
      rw [microDec_of_ok hp hm]
      refine .done ?_
      rw [done_fst, blockOrigin_withIdx, blockOrigin_withBlock, State.withIdx_idx, splitIndex_joinHalves]
      exact originBlock_zero _ _
    | false =>
      rw [microDec_of_bad hp hm]
      exact .raise (by decide) (by rw [blockOrigin_withVal, blockOrigin_withTxt])

/-- The same in the response the host sees. -/
theorem after {i : Instr} (h : SetsOrigin (engine Config.roundConstants i s) s lr) :
    ((after Config.roundConstants i s).rsp ≠ 0 → blockOrigin (after Config.roundConstants i s) = blockOrigin s) ∧
      ((after Config.roundConstants i s).rsp = 0 → blockOrigin (after Config.roundConstants i s) = lr) := by
  rw [after_rsp, ne_eq, Status.code_eq_zero, Machine.after, blockOrigin_complete]
  exact ⟨h.of_raise, h.of_ok⟩

end SetsOrigin

/-- Settles O56: the five commands that set a block, the two rounds, and those that do not write it. The argument needs
no legal round count: from the others the rounds are refused. -/
theorem roundsKeepTheirBlock : Obligations.RoundsKeepTheirBlock := by
  refine fun i s _ => ⟨_, exec_eq_after i s, ?_⟩
  cases i with
  | split => exact (SetsOrigin.microSplit s).after (i := .split)
  | enc x => exact (SetsOrigin.microEnc x s).after (i := .enc x)
  | extract => exact (SetsOrigin.microExtract s).after (i := .extract)
  | dec u => exact (SetsOrigin.microDec u s).after (i := .dec u)
  | clr => exact (SetsOrigin.done (blockOrigin_cleared s)).after (i := .clr)
  | round => exact (SetsOrigin.microRound s).after (i := .round)
  | unround => exact (SetsOrigin.microUnround s).after (i := .unround)
  | _ => exact (SetsOrigin.of_block_not_mem (by simp [writeSet]) s).after

end Sys2Proof.Machine
end

section
/-!
SUPPORT. The reset values (rules R26, R180).
-/
namespace Sys2Proof.Machine

theorem reset_txt_get (k : Fin 36) : State.reset.txt[k] = 0x00#8 := by
  simp [State.reset]

/-- Settles O15: six registers are the number 0 by definition, and each byte of the text is the replicated one. -/
theorem resetRegisterValues : Obligations.ResetRegisterValues :=
  ⟨rfl, rfl, rfl, rfl, rfl, reset_txt_get, rfl⟩

end Sys2Proof.Machine
end

section
/-!
SUPPORT. The command port (rules R34, R50, R51): the text port's bytes each way, the encoder against the decoder, and the
three ports as one word (assumption log 5).
-/
namespace Sys2Proof.Machine

-- Proofs are checked in turn here and in the sections below, as in one above: the compile of the joined text stands near
-- the check's memory limit, and proofs checked side by side each need their own part of it.
set_option Elab.async false

/-! ## Bytes read as one number -/

theorem bytesNat_append_singleton (bytes : List Byte) (b : Byte) :
    bytesNat (bytes ++ [b]) = bytesNat bytes * 256 + b.toNat := by
  rw [bytesNat, List.foldl_append]; rfl

theorem bytesNat_lt (bytes : List Byte) : bytesNat bytes < 256 ^ bytes.length := by
  induction bytes using List.reverseRecOn with
  | nil => exact Nat.one_pos
  | append_singleton bytes b ih =>
    rw [bytesNat_append_singleton, List.length_append, List.length_singleton, pow_succ]
    omega

/-- The digits in base 256 of the number that bytes make are those bytes, the first the most significant. -/
theorem bytesNat_digit (bytes : List Byte) {k : Nat} (h : k < bytes.length) :
    bytesNat bytes / 256 ^ (bytes.length - 1 - k) % 256 = bytes[k].toNat := by
  induction bytes using List.reverseRecOn with
  | nil => exact absurd h (Nat.not_lt_zero k)
  | append_singleton bytes b ih =>
    rw [bytesNat_append_singleton, List.length_append, List.length_singleton, Nat.add_sub_cancel]
    rcases Nat.lt_or_ge k bytes.length with hk | hk
    · have hpow : bytes.length - k = (bytes.length - 1 - k) + 1 := by omega
      have hdrop : (bytesNat bytes * 256 + b.toNat) / 256 = bytesNat bytes := by omega
      rw [hpow, pow_succ', ← Nat.div_div_eq_div_mul, hdrop, ih hk, List.getElem_append_left hk]
    · obtain rfl : k = bytes.length := by
        rw [List.length_append, List.length_singleton] at h
        omega
      rw [Nat.sub_self, pow_zero, Nat.div_one, List.getElem_concat_length rfl]
      omega

/-! ## The text port (rule R34) -/

theorem portOfText_toNat (t : Text) : (portOfText t).toNat = bytesNat t.toList := by
  have hlt := bytesNat_lt t.toList
  rw [Vector.length_toList] at hlt
  exact Nat.mod_eq_of_lt (by omega)

/-- `TXT[k]` is bits `287 - 8k` down to `280 - 8k` of the port. -/
theorem textOfPort_get_toNat (w : BitVec 288) (k : Fin 36) :
    (textOfPort w)[k].toNat = w.toNat / 2 ^ (280 - 8 * k.val) % 256 := by
  rw [textOfPort_get, BitVec.extractLsb'_toNat, Nat.shiftRight_eq_div_pow]

theorem textOfPort_portOfText (t : Text) : textOfPort (portOfText t) = t := by
  suffices hget : ∀ k : Fin 36, (textOfPort (portOfText t))[k] = t[k] from Vector.ext fun i hi => hget ⟨i, hi⟩
  intro k
  have hpow : 2 ^ (280 - 8 * k.val) = 256 ^ (36 - 1 - k.val) := by
    rw [show 280 - 8 * k.val = 8 * (36 - 1 - k.val) by omega]
    exact pow_mul 2 8 _
  have hdigit := bytesNat_digit t.toList (k := k.val) (by simp)
  simp only [Vector.length_toList, Vector.getElem_toList] at hdigit
  apply BitVec.eq_of_toNat_eq
  rw [textOfPort_get_toNat, portOfText_toNat, hpow, hdigit, Fin.getElem_fin]

/-- Every bit of the port is a bit of one of the 36 bytes. -/
theorem textOfPort_injective : Function.Injective textOfPort := by
  intro w w' h
  apply BitVec.eq_of_getLsbD_eq
  intro i hi
  have hbyte := congrArg (·[(⟨35 - i / 8, by omega⟩ : Fin 36)].getLsbD (i % 8)) h
  have hbit : 280 - 8 * (35 - i / 8) + i % 8 = i := by omega
  simpa only [textOfPort_get, BitVec.getLsbD_extractLsb', Nat.mod_lt i (by decide : 8 > 0), hbit, decide_true,
    Bool.true_and] using hbyte

theorem portOfText_textOfPort (w : BitVec 288) : portOfText (textOfPort w) = w :=
  textOfPort_injective (textOfPort_portOfText _)

/-! ## Decoding and encoding (rules R50, R51) -/

theorem decode_encode (i : Instr) : decode (encode i) = i := by
  cases i with
  | dec t => exact congrArg Instr.dec (textOfPort_portOfText t)
  | ldtxt t => exact congrArg Instr.ldtxt (textOfPort_portOfText t)
  | _ => rfl

theorem opcode_cases (op : BitVec 4) :
    op = 0x0#4 ∨ op = 0x1#4 ∨ op = 0x2#4 ∨ op = 0x3#4 ∨ op = 0x4#4 ∨ op = 0x5#4 ∨ op = 0x6#4 ∨ op = 0x7#4 ∨
      op = 0x8#4 ∨ op = 0x9#4 ∨ op = 0xA#4 ∨ op = 0xB#4 ∨ op = 0xC#4 ∨ op = 0xD#4 ∨ op = 0xE#4 ∨ op = 0xF#4 := by
  revert op; decide

/-- The encoder keeps the opcode and the sampled port of the word decoded, and drives an ignored port with 0. Row by row
of rule R51; the rows of DEC and LDTXT go through the text. -/
theorem encode_decode (op : BitVec 4) (x : BitVec 128) (t : BitVec 288) : encode (decode ⟨op, x, t⟩) =
    ⟨op, if samplesIdx op then x else 0, if samplesTxt op then t else 0⟩ := by
  have htext : portOfText (textOfPort t) = t := portOfText_textOfPort t
  rcases opcode_cases op with
    rfl | rfl | rfl | rfl | rfl | rfl | rfl | rfl | rfl | rfl | rfl | rfl | rfl | rfl | rfl | rfl
  exacts [rfl, rfl, congrArg (PortWord.mk _ _) htext, rfl,
    rfl, congrArg (PortWord.mk _ _) htext, rfl, rfl,
    rfl, rfl, rfl, rfl,
    rfl, rfl, rfl, rfl]

/-! ## The three ports as one word (assumption log 5) -/

theorem wordOfPort_mod (w : PortWord) : wordOfPort w % 16 = w.op.toNat := by
  rw [wordOfPort, Nat.add_mul_mod_self_left]
  exact Nat.mod_eq_of_lt w.op.isLt

theorem wordOfPort_div (w : PortWord) : wordOfPort w / 16 = w.idxIn.toNat + 2 ^ 128 * w.txtIn.toNat := by
  rw [wordOfPort, Nat.add_mul_div_left _ _ (by decide), Nat.div_eq_of_lt w.op.isLt, Nat.zero_add]

theorem wordOfPort_div_div (w : PortWord) : wordOfPort w / 16 / 2 ^ 128 = w.txtIn.toNat := by
  rw [wordOfPort_div, Nat.add_mul_div_left _ _ (Nat.two_pow_pos 128), Nat.div_eq_of_lt w.idxIn.isLt, Nat.zero_add]

/-- Each port is read back from its bits. -/
theorem portOfWord_wordOfPort (w : PortWord) : portOfWord (wordOfPort w) = w := by
  have hop : BitVec.ofNat 4 (wordOfPort w) = w.op :=
    BitVec.eq_of_toNat_eq ((BitVec.toNat_ofNat _ _).trans (wordOfPort_mod w))
  have hidx : BitVec.ofNat 128 (wordOfPort w / 16) = w.idxIn := by
    apply BitVec.eq_of_toNat_eq
    rw [wordOfPort_div, BitVec.toNat_ofNat, Nat.add_mul_mod_self_left, Nat.mod_eq_of_lt w.idxIn.isLt]
  rw [portOfWord, hop, hidx, wordOfPort_div_div, BitVec.ofNat_toNat, BitVec.setWidth_eq]

/-- The word of a port word has no bit above its 420. -/
theorem decodeWord_wordOfPort (w : PortWord) : decodeWord (wordOfPort w) = .ok (decode w) := by
  have hbits : wordOfPort w / 16 / 2 ^ 128 / 2 ^ 144 / 2 ^ 144 = 0 := by
    rw [wordOfPort_div_div]
    omega
  rw [decodeWord, if_pos hbits, portOfWord_wordOfPort]

/-- Settles O2: the sampled port is read back from where the encoder put it. -/
theorem decodeOfEncodeIsIdentity : Obligations.DecodeOfEncodeIsIdentity := by
  refine fun i _ => ⟨decode_encode i, ?_⟩
  rw [decodeTableWord, decodeWord_wordOfPort, decode_encode]
  rfl

/-- Settles O3: on a canonical word the ports the encoder drives with 0 carry 0 already. -/
theorem encodeOfDecodeIsIdentity : Obligations.EncodeOfDecodeIsIdentity := by
  refine ⟨fun ⟨op, x, t⟩ hw => ?_, portOfWord_wordOfPort⟩
  simp only [PortWord.canonical, Bool.and_eq_true, Bool.or_eq_true, beq_iff_eq] at hw
  obtain ⟨hx, ht⟩ := hw
  rw [encode_decode, ite_eq_left_iff.mpr fun h => (hx.resolve_left h).symm,
    ite_eq_left_iff.mpr fun h => (ht.resolve_left h).symm]

/-! ## Ports that are ignored (rule R50) -/

/-- The command read depends on the opcode and the sampled port only: it is what its encoding decodes to. -/
theorem decode_congr {op : BitVec 4} {x x' : BitVec 128} {t t' : BitVec 288} (hx : samplesIdx op = true → x = x')
    (ht : samplesTxt op = true → t = t') : decode ⟨op, x, t⟩ = decode ⟨op, x', t'⟩ := by
  have hencode : encode (decode ⟨op, x, t⟩) = encode (decode ⟨op, x', t'⟩) := by
    rw [encode_decode, encode_decode, ite_congr rfl hx fun _ => rfl, ite_congr rfl ht fun _ => rfl]
  rw [← decode_encode (decode ⟨op, x, t⟩), hencode, decode_encode]

/-- Settles O4: the same command is read, so the same is done. -/
theorem ignoredPortsHaveNoEffect : Obligations.IgnoredPortsHaveNoEffect := by
  intro op x x' t t' s hx ht
  have hdecode : decode ⟨op, x, t⟩ = decode ⟨op, x', t'⟩ :=
    decode_congr (by simpa [samplesIdx] using hx) (by simpa [samplesTxt] using ht)
  exact ⟨hdecode, by rw [hdecode]⟩

/-- Settles O5: LDTXT takes the text of the port, and every text has a port word. -/
theorem textPortIsMostSignificantFirst : Obligations.TextPortIsMostSignificantFirst := by
  refine ⟨fun x w s => ?_, fun u => ⟨portOfText u, congrArg Instr.ldtxt (textOfPort_portOfText u)⟩⟩
  exact ⟨_, exec_of_done (.ldtxt (textOfPort w)) (microLdtxt_eq _ s), textOfPort_get_toNat w⟩

/-! ## Written commands (rule R60) -/

theorem assemble_isSome (c : AsmCommand) : c.assemble.isSome = c.wellFormed := by
  unfold AsmCommand.assemble
  cases c.wellFormed <;> rfl

theorem textFits_toList (t : Text) : textFits t.toList = true := by
  rw [textFits, Vector.length_toList, beq_self_eq_true]

/-- Settles O6: the check of each operand is the bound of its port, and the word is the opcode beside the operand. -/
theorem assembledCommandsDecodeToThemselves : Obligations.AssembledCommandsDecodeToThemselves := by
  refine ⟨fun n => ?_, fun n => ?_, fun text => ?_, fun text => ?_, fun n => ?_, fun n h => ?_, fun n h => ?_,
    fun t => ?_, fun t => ?_, fun n h => ?_, ⟨_, rfl, rfl⟩, ⟨_, rfl, rfl⟩, ⟨_, rfl, rfl⟩, ⟨_, rfl, rfl⟩, ⟨_, rfl, rfl⟩,
    ⟨_, rfl, rfl⟩, ⟨_, rfl, rfl⟩, ⟨_, rfl, rfl⟩, ⟨_, rfl, rfl⟩, ⟨_, rfl, rfl⟩⟩
  · rw [assemble_isSome]; exact decide_eq_true_iff
  · rw [assemble_isSome]; exact decide_eq_true_iff
  · rw [assemble_isSome]; exact beq_iff_eq
  · rw [assemble_isSome]; exact beq_iff_eq
  · rw [assemble_isSome]; exact decide_eq_true_iff
  · exact ⟨_, if_pos (decide_eq_true h), rfl⟩
  · exact ⟨_, if_pos (decide_eq_true h), rfl⟩
  · exact ⟨_, if_pos (textFits_toList t), congrArg Instr.dec (textOfPort_portOfText t)⟩
  · exact ⟨_, if_pos (textFits_toList t), congrArg Instr.ldtxt (textOfPort_portOfText t)⟩
  · exact ⟨_, if_pos (decide_eq_true h), Nat.mod_eq_of_lt h⟩

/-! ## Lines of assembler text (rule R60) -/

/-- The line assembles to a port word of the command `i`. -/
def AssemblesTo (line : String) (i : Instr) : Prop := ∃ w, assembleLine line.toList = .ok (some w) ∧ decode w = i

/-! One line is read by computation in each lemma: all of them in one would hold every reading in memory at once. -/

theorem assemblesTo_nop : AssemblesTo "NOP" .nop := ⟨_, rfl, rfl⟩
theorem assemblesTo_clr : AssemblesTo "CLR" .clr := ⟨_, rfl, rfl⟩
theorem assemblesTo_split : AssemblesTo "SPLIT" .split := ⟨_, rfl, rfl⟩
theorem assemblesTo_round : AssemblesTo "ROUND" .round := ⟨_, rfl, rfl⟩
theorem assemblesTo_unround : AssemblesTo "UNROUND" .unround := ⟨_, rfl, rfl⟩
theorem assemblesTo_pack : AssemblesTo "PACK" .pack := ⟨_, rfl, rfl⟩
theorem assemblesTo_extract : AssemblesTo "EXTRACT" .extract := ⟨_, rfl, rfl⟩
theorem assemblesTo_fmt : AssemblesTo "FMT" .fmt := ⟨_, rfl, rfl⟩
theorem assemblesTo_parse : AssemblesTo "PARSE" .parse := ⟨_, rfl, rfl⟩
theorem assemblesTo_join : AssemblesTo "JOIN" .join := ⟨_, rfl, rfl⟩
theorem assemblesTo_reservedE : AssemblesTo ".op 14" .reservedE := ⟨_, rfl, rfl⟩
theorem assemblesTo_reservedF : AssemblesTo ".op 15" .reservedF := ⟨_, rfl, rfl⟩

/-- Settles O57: the ten mnemonics and the two bare opcodes, line by line. -/
theorem assemblerLinesNameTheirCommands : Obligations.AssemblerLinesNameTheirCommands :=
  ⟨assemblesTo_nop, assemblesTo_clr, assemblesTo_split, assemblesTo_round, assemblesTo_unround, assemblesTo_pack,
    assemblesTo_extract, assemblesTo_fmt, assemblesTo_parse, assemblesTo_join, assemblesTo_reservedE,
    assemblesTo_reservedF⟩

end Sys2Proof.Machine
end

section
/-!
SUPPORT. Steps (rules R7, R41, R161) and the commands against the host's list: no stage reads the list, so a command does
the same whatever the host issues after it (assumption log 3).
-/
namespace Sys2Proof.Machine

set_option Elab.async false

/-- Settles O7: the engine takes the word off before it runs the command. -/
theorem stepRunsTheDecodedCommand : Obligations.StepRunsTheDecodedCommand := by
  intro s w rest h
  rw [step_of_command h, exec_eq_after]

/-- Settles O8: without a word on the list a step is idle. -/
theorem idleStepChangesNothing : Obligations.IdleStepChangesNothing := fun _ => step_of_idle

/-- A step answers a next state, whether the engine is idle or takes a command. -/
theorem exists_step_eq_next (s : State) : ∃ t, step s = .next t := by
  cases h : s.program with
  | nil => exact ⟨s, step_of_idle h⟩
  | cons w rest => exact ⟨_, step_of_command h⟩

/-- Settles O9: a raise is a next state too (rule R161). -/
theorem everyStepAnswersANextState : Obligations.EveryStepAnswersANextState :=
  ⟨exists_step_eq_next, fun i s => ⟨_, exec_eq_after i s⟩⟩

/-- Settles O48: CLR leaves each register at its reset value, the response 0 and the host's list as it was. -/
theorem clrAndResetReachTheSameState : Obligations.ClrAndResetReachTheSameState :=
  fun s => ⟨exec_clr s, rfl⟩

/-! ## No stage reads the host's list -/

/-- With another list, `m` writes and answers the same, and leaves that list as it was. -/
def IgnoresProgram (m : Micro) : Prop :=
  ∀ (s : State) (ws : List PortWord), m { s with program := ws } = ({ (m s).1 with program := ws }, (m s).2)

theorem microSplit_ignoresProgram : IgnoresProgram microSplit := fun s ws => by
  dsimp only [microSplit]
  split <;> rfl

theorem microRound_ignoresProgram (rc : RoundConstants) : IgnoresProgram (microRound rc) := fun s ws => by
  dsimp only [microRound]
  split <;> rfl

theorem microUnround_ignoresProgram (rc : RoundConstants) : IgnoresProgram (microUnround rc) := fun s ws => by
  dsimp only [microUnround]
  split <;> rfl

theorem microParse_ignoresProgram : IgnoresProgram microParse := fun s ws => by
  dsimp only [microParse]
  split <;> rfl

theorem microExtract_ignoresProgram : IgnoresProgram microExtract := fun s ws => by
  dsimp only [microExtract]
  split <;> rfl

/-- A sequence looks at the list only if a stage does. -/
theorem runSeq_ignoresProgram {ms : List Micro} (h : ∀ m ∈ ms, IgnoresProgram m) : IgnoresProgram (runSeq ms) := by
  intro s ws
  induction ms generalizing s with
  | nil => rfl
  | cons m ms ih =>
    obtain ⟨hm, hms⟩ := List.forall_mem_cons.mp h
    have hst : (m { s with program := ws }).2 = (m s).2 := by rw [hm]
    by_cases hk : (m s).2 = .ok
    · rw [runSeq_cons_ok hk, runSeq_cons_ok (hst.trans hk), hm, ih hms]
    · rw [runSeq_cons_raise hk, runSeq_cons_raise (hst ▸ hk), hm]

theorem microEnc_ignoresProgram (rc : RoundConstants) (x : Index) : IgnoresProgram (microEnc rc x) := by
  refine runSeq_ignoresProgram (ms := encStages rc x) ?_
  have hround := microRound_ignoresProgram rc
  simp only [encStages, List.forall_mem_cons]
  exact ⟨fun _ _ => rfl, microSplit_ignoresProgram, hround, hround, hround, hround, fun _ _ => rfl, fun _ _ => rfl,
    List.forall_mem_nil _⟩

theorem microDec_ignoresProgram (rc : RoundConstants) (u : Text) : IgnoresProgram (microDec rc u) := by
  refine runSeq_ignoresProgram (ms := decStages rc u) ?_
  have hunround := microUnround_ignoresProgram rc
  simp only [decStages, List.forall_mem_cons]
  exact ⟨fun _ _ => rfl, microParse_ignoresProgram, microExtract_ignoresProgram, hunround, hunround, hunround, hunround,
    fun _ _ => rfl, List.forall_mem_nil _⟩

theorem engine_ignoresProgram (rc : RoundConstants) (i : Instr) : IgnoresProgram (engine rc i) := by
  cases i with
  | enc x => exact microEnc_ignoresProgram rc x
  | dec u => exact microDec_ignoresProgram rc u
  | split => exact microSplit_ignoresProgram
  | round => exact microRound_ignoresProgram rc
  | unround => exact microUnround_ignoresProgram rc
  | extract => exact microExtract_ignoresProgram
  | parse => exact microParse_ignoresProgram
  | _ => exact fun _ _ => rfl

/-- A command does the same whatever the host issues after it. -/
theorem after_withProgram (rc : RoundConstants) (i : Instr) (s : State) (ws : List PortWord) :
    after rc i { s with program := ws } = { after rc i s with program := ws } := by
  rw [after, engine_ignoresProgram]; rfl

end Sys2Proof.Machine
end

section
/-!
SUPPORT. Runs (rules R41, R188): the first command of a run and the run of the others, and when a run has gone wrong.
-/
namespace Sys2Proof.Machine

set_option Elab.async false

/-! ## A run by its first command -/

theorem core_run_succ {s t : State} (h : step s = .next t) (n : Nat) : core.run (n + 1) s = core.run n t := by
  have hcore : core.step s = .next t := h
  simp only [Host.Core.run, hcore]

/-- The state the command of a word leaves, under the engine's own table. -/
def afterWord (s : State) (w : PortWord) : State := after Config.roundConstants (decode w) s

theorem afterWord_withProgram (s : State) (w : PortWord) (ws : List PortWord) :
    afterWord { s with program := ws } w = { afterWord s w with program := ws } := after_withProgram _ _ s ws

theorem foldl_afterWord_withProgram (s : State) (cs ws : List PortWord) :
    cs.foldl afterWord { s with program := ws } = { cs.foldl afterWord s with program := ws } :=
  List.foldl_hom (fun u : State => { u with program := ws }) fun u w => afterWord_withProgram u w ws

theorem step_cons {s : State} {w : PortWord} {ws : List PortWord} (h : s.program = w :: ws) :
    step s = .next { afterWord s w with program := ws } := by
  rw [step_of_command h, after_withProgram, afterWord]

/-- Settles O10: each command is taken off before the others are looked at, and none looks at them. -/
theorem runTakesCommandsInOrder : Obligations.RunTakesCommandsInOrder := by
  intro s ws rest h
  induction ws generalizing s with
  | nil =>
    rw [List.foldl_nil, ← List.nil_append rest, ← h]
    rfl
  | cons w ws ih =>
    have hfold := foldl_afterWord_withProgram (afterWord s w) ws (ws ++ rest)
    calc core.run (ws.length + 1) s
        = core.run ws.length { afterWord s w with program := ws ++ rest } := core_run_succ (step_cons h) _
      _ = .next { ws.foldl afterWord { afterWord s w with program := ws ++ rest } with program := rest } := ih _ rfl
      _ = .next { ws.foldl afterWord (afterWord s w) with program := rest } := by rw [hfold]

/-! ## Runs of all commands (rule R188) -/

/-- The first part of a run is followed by the rest of it. -/
theorem core_run_add {m : Nat} {s t : State} (h : core.run m s = .next t) (n : Nat) :
    core.run (m + n) s = core.run n t := by
  induction m generalizing s with
  | zero =>
    cases h
    rw [Nat.zero_add]
  | succ m ih =>
    obtain ⟨u, hu⟩ := exists_step_eq_next s
    rw [core_run_succ hu] at h
    rw [Nat.succ_add, core_run_succ hu, ih h]

theorem statuses_succ {s t : State} (h : step s = .next t) (n : Nat) :
    statuses (n + 1) s = t.rsp :: statuses n t := by
  simp only [statuses, h]

theorem length_statuses (n : Nat) (s : State) : (statuses n s).length = n := by
  induction n generalizing s with
  | zero => rfl
  | succ n ih =>
    obtain ⟨t, ht⟩ := exists_step_eq_next s
    rw [statuses_succ ht, List.length_cons, ih]

/-- Settles O11: a run of as many steps as there are commands takes them all. -/
theorem runEndsWithTheProgram : Obligations.RunEndsWithTheProgram := by
  refine ⟨fun m n s t h => core_run_add h n, fun s => ?_⟩
  exact ⟨_, runTakesCommandsInOrder s s.program [] (List.append_nil _).symm, rfl, length_statuses _ s⟩

theorem runAll_nil {s : State} (h : s.program = []) : runAll s = .next s := by
  rw [runAll, h]; rfl

theorem runAll_cons {s : State} {w : PortWord} {ws : List PortWord} (h : s.program = w :: ws) :
    runAll s = runAll { afterWord s w with program := ws } := by
  rw [runAll, h]; exact core_run_succ (step_cons h) _

/-! ## When a run has gone wrong (rule R188) -/

theorem not_goneWrong_nil {s : State} (h : s.program = []) : ¬ GoneWrong s := by
  rw [GoneWrong, h]
  exact fun ⟨_, hmem, _⟩ => List.not_mem_nil hmem

theorem goneWrong_cons {s : State} {w : PortWord} {ws : List PortWord} (h : s.program = w :: ws) :
    GoneWrong s ↔ (afterWord s w).rsp ≠ 0 ∨ GoneWrong { afterWord s w with program := ws } := by
  rw [GoneWrong, h, List.length_cons, statuses_succ (step_cons h)]
  simp only [List.mem_cons, exists_eq_or_imp]

/-- No CLR stands after the first error: the commands before a CLR have not gone wrong. -/
def NoClrAfterError (s : State) : Prop :=
  ∀ (before later : List PortWord) (w : PortWord), s.program = before ++ w :: later → decode w = .clr →
    ¬ GoneWrong { s with program := before }

/-- A run of `w` and then the commands `before` has gone wrong if `w` raised or the run of the others has. -/
theorem goneWrong_before_cons (s : State) (w : PortWord) (before : List PortWord) :
    GoneWrong { s with program := w :: before } ↔
      (afterWord s w).rsp ≠ 0 ∨ GoneWrong { afterWord s w with program := before } := by
  rw [goneWrong_cons rfl, afterWord_withProgram]

section FirstCommand

variable {s : State} {w : PortWord} {ws : List PortWord} (hp : s.program = w :: ws) (hs : NoClrAfterError s)

include hp hs

/-- After a first command that completed the rest of the run is of the same kind. -/
theorem NoClrAfterError.tail : NoClrAfterError { afterWord s w with program := ws } := by
  intro before later v hws hv hwrong
  refine hs (w :: before) later v (by rw [hp, List.cons_append, ← hws]) hv ?_
  exact (goneWrong_before_cons s w before).mpr (.inr hwrong)

/-- After a first command that raised no CLR follows. -/
theorem NoClrAfterError.not_clr_of_raise (hrsp : (afterWord s w).rsp ≠ 0) : ∀ v ∈ ws, decode v ≠ .clr := by
  intro v hmem hv
  obtain ⟨before, later, rfl⟩ := List.append_of_mem hmem
  exact hs (w :: before) later v hp hv ((goneWrong_before_cons s w before).mpr (.inl hrsp))

end FirstCommand

/-- From a clear `ERR` a command leaves its own status there; CLR's is 0 (rules R141, R155). -/
theorem after_err_of_err_zero {s : State} (h : s.err = 0) (rc : RoundConstants) (i : Instr) :
    (after rc i s).err = (after rc i s).rsp := by
  by_cases hclr : i = .clr
  · subst hclr; rfl
  · rw [after_err_of_ne_clr hclr, after_rsp, stickyErr_eq, if_pos h]

/-- Without a CLR an error stays in `ERR` to the end of the run (rule R155). -/
theorem runAll_err_ne_zero {s t : State} (hclr : ∀ w ∈ s.program, decode w ≠ .clr) (he : s.err ≠ 0)
    (hrun : runAll s = .next t) : t.err ≠ 0 := by
  induction hp : s.program generalizing s with
  | nil =>
    rw [runAll_nil hp] at hrun
    cases hrun
    exact he
  | cons w ws ih =>
    rw [hp] at hclr
    obtain ⟨hw, hws⟩ := List.forall_mem_cons.mp hclr
    rw [runAll_cons hp] at hrun
    refine ih hws ?_ hrun rfl
    exact (after_err_of_ne_zero hw he _).trans_ne he

/-- Settles O12: up to the first error `ERR` is 0, the error sets it, and no CLR clears it again. -/
theorem runWentWrongIffErrIsSet : Obligations.RunWentWrongIffErrIsSet := by
  intro s t he (hs : NoClrAfterError s) hrun
  induction hp : s.program generalizing s with
  | nil =>
    rw [runAll_nil hp] at hrun
    cases hrun
    exact iff_of_false (not_goneWrong_nil hp) (not_not.mpr he)
  | cons w ws ih =>
    have herr : (afterWord s w).err = (afterWord s w).rsp := after_err_of_err_zero he _ _
    rw [runAll_cons hp] at hrun
    rw [goneWrong_cons hp]
    by_cases hrsp : (afterWord s w).rsp = 0
    · rw [or_iff_right (not_not.mpr hrsp)]
      exact ih _ (herr.trans hrsp) (hs.tail hp) hrun rfl
    · refine iff_of_true (.inl hrsp) (runAll_err_ne_zero ?_ ?_ hrun)
      · exact hs.not_clr_of_raise hp hrsp
      · exact herr.trans_ne hrsp

end Sys2Proof.Machine
end

section
/-!
SUPPORT. The four statuses (rules R53, R54, R150): under which condition each command answers which, and what a raise
leaves (rule R154).
-/
namespace Sys2Proof.Machine

set_option Elab.async false

/-! ## The status of each command -/

theorem Status.code_inj {a b : Status} : a.code = b.code ↔ a = b := by cases a <;> cases b <;> decide

/-- The status a command answers in a state (rules R54, R150). -/
def statusOf (i : Instr) (s : State) : Status :=
  match i with
  | .enc x => if x.toNat < 2 ^ 122 then .ok else .outOfRange
  | .dec u => if IsIdentifier u then .ok else .invalidFormat
  | .split => if s.idx.toNat < 2 ^ 122 then .ok else .outOfRange
  | .round => if s.rnd.toNat < 4 then .ok else .illegalCommand
  | .unround => if 1 ≤ s.rnd.toNat ∧ s.rnd.toNat ≤ 4 then .ok else .illegalCommand
  | .extract => if markersOk s.val then .ok else .invalidFormat
  | .parse => if HexWithHyphens s.txt then .ok else .invalidFormat
  | .reservedE | .reservedF => .illegalCommand
  | .nop | .clr | .ldidx _ | .ldtxt _ | .pack | .fmt | .join => .ok

theorem statusOf_eq_outOfRange {i : Instr} {s : State} : statusOf i s = .outOfRange ↔
    (i = .split ∧ 2 ^ 122 ≤ s.idx.toNat) ∨ ∃ x : Index, i = .enc x ∧ 2 ^ 122 ≤ x.toNat := by
  cases i <;> simp [statusOf, ite_eq_iff]

theorem statusOf_eq_invalidFormat {i : Instr} {s : State} : statusOf i s = .invalidFormat ↔
    (i = .parse ∧ ¬ HexWithHyphens s.txt) ∨ (i = .extract ∧ ¬ markersOk s.val = true) ∨
      ∃ u : Text, i = .dec u ∧ ¬ IsIdentifier u := by
  cases i <;> simp [-not_and, statusOf, ite_eq_iff]

theorem statusOf_eq_illegalCommand {i : Instr} {s : State} : statusOf i s = .illegalCommand ↔
    i = .reservedE ∨ i = .reservedF ∨ (i = .round ∧ 4 ≤ s.rnd.toNat) ∨
      (i = .unround ∧ (s.rnd.toNat = 0 ∨ 4 < s.rnd.toNat)) := by
  cases i with
  | unround =>
    simp only [statusOf, ite_eq_right_iff, reduceCtorEq, imp_false, false_or, true_and, false_and]
    omega
  | _ => simp [statusOf, ite_eq_iff]

/-! ## What a micro-command answers -/

/-- ENC and DEC run a sequence of micro-commands (rules R120, R121); each other command is one. -/
def isMacro : Instr → Bool
  | .enc _ | .dec _ => true
  | _ => false

/-- The answer `p` of a micro-command issued in `s` has the status `st`, and where that is a raise no register is
written (rule R154). -/
structure Answers (p : State × Status) (s : State) (st : Status) : Prop where
  status : p.2 = st
  unwritten : st ≠ .ok → p.1 = s

namespace Answers

variable {p : State × Status} {s t : State} {x : Status}

theorem done : Answers (done t) s .ok := ⟨rfl, absurd rfl⟩

theorem raise : Answers (raise x s) s x := ⟨rfl, fun _ => rfl⟩

/-- A command that checks `c` first. -/
theorem of_check {c : Prop} [Decidable c] (hok : c → ∃ t, p = Machine.done t) (hraise : ¬ c → p = Machine.raise x s) :
    Answers p s (if c then .ok else x) := by
  split
  next hc => obtain ⟨t, rfl⟩ := hok hc; exact .done
  next hc => rw [hraise hc]; exact .raise

theorem microSplit (s : State) : Answers (microSplit s) s (statusOf .split s) :=
  .of_check (fun h => ⟨_, microSplit_of_lt ((inDomain_iff _).mpr h)⟩)
    fun h => microSplit_of_ge (inDomain_eq_false (not_lt.mp h))

theorem microRound (rc : RoundConstants) (s : State) : Answers (microRound rc s) s (statusOf .round s) :=
  .of_check (fun h => ⟨_, microRound_of_lt h⟩) fun h => microRound_of_ge (not_lt.mp h)

theorem microUnround (rc : RoundConstants) (s : State) : Answers (microUnround rc s) s (statusOf .unround s) := by
  refine .of_check (fun ⟨h1, h4⟩ => ⟨_, microUnround_of_legal ?_ h4⟩) fun h => microUnround_of_illegal ?_ <;> bv_omega

theorem microExtract (s : State) : Answers (microExtract s) s (statusOf .extract s) :=
  .of_check (fun h => ⟨_, microExtract_of_ok h⟩) fun h => microExtract_of_bad (Bool.eq_false_iff.mpr h)

theorem microParse (s : State) : Answers (microParse s) s (statusOf .parse s) := by
  refine .of_check (fun h => ?_) fun h => microParse_of_none ?_
  · obtain ⟨v, hv⟩ := Option.isSome_iff_exists.mp ((parseText_isSome s.txt).mpr h)
    exact ⟨_, microParse_of_some hv⟩
  · exact Option.not_isSome_iff_eq_none.mp (mt (parseText_isSome s.txt).mp h)

/-- Every command that is one micro-command. -/
theorem engine {i : Instr} (h : isMacro i = false) (rc : RoundConstants) (s : State) :
    Answers (engine rc i s) s (statusOf i s) := by
  cases i with
  | enc x | dec u => cases h
  | split => exact microSplit s
  | round => exact microRound rc s
  | unround => exact microUnround rc s
  | extract => exact microExtract s
  | parse => exact microParse s
  | reservedE | reservedF => exact .raise
  | _ => exact .done

end Answers

/-! ## What a command answers -/

theorem after_enc_rsp (rc : RoundConstants) (x : Index) (s : State) :
    (after rc (.enc x) s).rsp = (statusOf (.enc x) s).code := by
  rw [statusOf]
  split
  next h => rw [after_enc_of_lt h]; rfl
  next h => rw [after_enc_of_ge (not_lt.mp h)]; rfl

theorem after_dec_rsp (rc : RoundConstants) (u : Text) (s : State) :
    (after rc (.dec u) s).rsp = (statusOf (.dec u) s).code := by
  rw [statusOf]
  split
  next h =>
    obtain ⟨v, hv, hm⟩ := (isIdentifier_iff_parseText u).mp h
    rw [after_dec_of_ok hv hm]
    rfl
  next h => exact after_dec_rsp_of_not_isIdentifier h rc s

theorem after_rsp_eq_statusOf (rc : RoundConstants) (i : Instr) (s : State) :
    (after rc i s).rsp = (statusOf i s).code := by
  cases i with
  | enc x => exact after_enc_rsp rc x s
  | dec u => exact after_dec_rsp rc u s
  | _ => rw [after_rsp, (Answers.engine rfl rc s).status]

/-- Settles O52: the causes are read off `statusOf`, whose conditions exclude each other. -/
theorem statusHasExactlyItsCauses : Obligations.StatusHasExactlyItsCauses := by
  intro i s
  refine ⟨_, exec_eq_after i s, ?_⟩
  rw [after_rsp_eq_statusOf]
  have hmarkers : ¬ markersOk s.val = true ↔ ¬ (valueVersion s.val = VERSION ∧ valueVariant s.val = VARIANT) :=
    not_congr (markersOk_iff s.val)
  refine ⟨(Status.code_inj (b := .outOfRange)).trans statusOf_eq_outOfRange,
    (Status.code_inj (b := .invalidFormat)).trans ?_,
    (Status.code_inj (b := .illegalCommand)).trans statusOf_eq_illegalCommand⟩
  rw [statusOf_eq_invalidFormat, hmarkers]
  rfl

/-! ## What a raise leaves (rule R154) -/

/-- A raising command that is one micro-command writes `ERR` and the response only. -/
theorem after_of_raise {rc : RoundConstants} {i : Instr} {s : State} (h : Answers (engine rc i s) s (statusOf i s))
    (hrsp : (after rc i s).rsp ≠ 0) : after rc i s = { s with
      err := if s.err = 0 then (after rc i s).rsp else s.err, rsp := (after rc i s).rsp } := by
  have hst : statusOf i s ≠ .ok := by rwa [after_rsp_eq_statusOf, ne_eq, Status.code_eq_zero] at hrsp
  rw [after_rsp_eq_statusOf, after, h.unwritten hst, h.status, State.complete_raise s hst]

/-- Settles O51: SPLIT raises inside ENC, PARSE or EXTRACT inside DEC, or the command is one micro-command. -/
theorem raisingWritesNoFurtherRegister : Obligations.RaisingWritesNoFurtherRegister := by
  intro i s
  refine ⟨_, exec_eq_after i s, fun hrsp => ?_⟩
  cases i with
  | enc x =>
    rcases Nat.lt_or_ge x.toNat (2 ^ 122) with h | h
    · rw [after_enc_of_lt h] at hrsp
      exact absurd rfl hrsp
    · rw [after_enc_of_ge h]
      exact ⟨rfl, rfl⟩
  | dec u =>
    cases hp : parseText u with
    | none =>
      rw [after_dec_of_none hp]
      simp only [hp, Option.getD_none, and_self]
    | some v =>
      cases hm : markersOk v with
      | true =>
        rw [after_dec_of_ok hp hm] at hrsp
        exact absurd rfl hrsp
      | false =>
        rw [after_dec_of_bad hp hm]
        simp only [hp, Option.getD_some, and_self]
  | _ =>
    rw [after_of_raise (.engine rfl _ s) hrsp]
    exact ⟨rfl, rfl⟩

end Sys2Proof.Machine
end
